-- ==== Sys2Proof/Word.lean ====
section
/-! DEFINITION. The word types of the block: bytes of the buffer, 32-bit offsets and payload words (`RES_W`, `POS_W` of
00_scope.md R6), and 64-bit command words (`CMD_W` of R6). -/

namespace Sys2Proof

/-- One byte of the buffer (R40). -/
abbrev Byte := BitVec 8

/-- An operand, a cursor position or a response word: `POS_W` = `RES_W` = 32 bits (R6). -/
abbrev Word := BitVec 32

/-- A command word: `CMD_W` = 64 bits (R6, R62). -/
abbrev CmdWord := BitVec 64

end Sys2Proof
end

