-- ==== Sys2Proof/Config.lean ====
section
/-! DEFINITION. The tagged values of the MPEG frame header (42_mpeg_header.md R141), the shape of the block's parameters
(00_scope.md R6), and its two OPEN parameters as constants without a value: `BUF_CAP` and `crc16_x25`. The contents of the
parameters that have defaults (codings, bitrates) stand in Sys2Proof/Machine/Tables.lean. -/

namespace Sys2Proof

/-- `version` of a frame header (R141). -/
inductive Version where
  | mpeg1 | mpeg2 | mpeg25 | reserved
  deriving DecidableEq, Repr

/-- `layer` of a frame header (R141). -/
inductive Layer where
  | layerI | layerII | layerIII | reserved
  deriving DecidableEq, Repr

/-- `protection` of a frame header (R141). -/
inductive Protection where
  | crcPresent | notProtected
  deriving DecidableEq, Repr

/-- `channel_mode` of a frame header (R141). -/
inductive ChannelMode where
  | stereo | jointStereo | dualChannel | singleChannel
  deriving DecidableEq, Repr

/-- The five bitrate tables (R151). -/
inductive BitrateTable where
  | v1l1 | v1l2 | v1l3 | v2l1 | v2l2l3
  deriving DecidableEq, Repr

/-- The parameters that a claim may want to quantify over: the four codings (R143 to R146), the bitrate tables in kbps
(R148) and the external checksum (R6, R156). Not part of State: fixed for the machine. -/
structure Params where
  versionOf : BitVec 2 → Version
  layerOf : BitVec 2 → Layer
  protectionOf : BitVec 1 → Protection
  channelModeOf : BitVec 2 → ChannelMode
  bitrateKbps : BitrateTable → List Nat
  crc16X25 : List Byte → BitVec 16

namespace Config

/-- The OPEN parameter `crc16_x25` (R6): a total function of the byte sequence alone, nothing else is known of it. Log
entry 7. -/
opaque crc16X25 : List Byte → BitVec 16

/-- `BUF_CAP` less one, an open value: with it `BUF_CAP` ranges over exactly 1 to 2^29 - 1. Log entry 6. -/
opaque bufCapLessOne : Fin 536870911

/-- The OPEN parameter `BUF_CAP` (R6): the largest buffer length in bytes. -/
def bufCap : Nat := bufCapLessOne.val + 1

end Config

end Sys2Proof
end

