-- ==== Sys2Proof/Syntax.lean ====
section
/-! DEFINITION. The BCX command set, version 1: one constructor per row of spec/opcode_table.json (30_encoding.md R66). Each
operand has exactly the width its free field has (R64), so a field that must be zero cannot be spelled. -/

namespace Sys2Proof

/-- A decoded command. -/
inductive Instr where
  /-- EXTRACT off, len (R94). -/
  | extract (off : Word) (len : Byte)
  /-- CSET pos (R95). -/
  | cset (pos : Word)
  /-- CREAD len (R96). -/
  | cread (len : Byte)
  /-- SSDEC base (R111). -/
  | ssdec (base : Word)
  /-- ID3HDR (R112). -/
  | id3hdr
  /-- ID3FRM base (R117). -/
  | id3frm (base : Word)
  /-- ID3WALK tagsize (R125); the operand is 28 bits wide (R64). -/
  | id3walk (tagsize : BitVec 28)
  /-- MPGHDR base (R142). -/
  | mpghdr (base : Word)
  /-- MPGDRV hdr (R147). -/
  | mpgdrv (hdr : Word)
  /-- MPGCRC base (R156). -/
  | mpgcrc (base : Word)
  /-- SIDEINFO base, cm (R172); `CM` is 2 bits wide (R62). -/
  | sideinfo (base : Word) (cm : BitVec 2)
  deriving DecidableEq, Repr

end Sys2Proof
end

