-- ==== Sys2Proof/WellFormed.lean ====
section
/-! DEFINITION. Which command words are legal, by the `match` and `mask` columns of 30_encoding.md R66. The constructors of
`Instr` carry every restriction on an operand in the operand's type, so every term of `Instr` is well formed and the check is
one on raw words. The decoder (Sys2Proof/Decode.lean) follows R63 field by field and does not use this table; that the two
agree is stated as an obligation. -/

namespace Sys2Proof

/-- One row of the opcode map: a word `w` spells the command exactly when `w & mask = match` (R66). -/
structure OpcodeRow where
  mnemonic : String
  pattern : CmdWord
  mask : CmdWord
  deriving DecidableEq, Repr

/-- The eleven rows of R66. -/
def opcodeTable : List OpcodeRow :=
  [⟨"EXTRACT",  0x0100000000000000, 0xFF00FFFF00000000⟩,
   ⟨"CSET",     0x0200000000000000, 0xFFFFFFFF00000000⟩,
   ⟨"CREAD",    0x0300000000000000, 0xFF00FFFFFFFFFFFF⟩,
   ⟨"SSDEC",    0x1000000000000000, 0xFFFFFFFF00000000⟩,
   ⟨"ID3HDR",   0x1100000000000000, 0xFFFFFFFFFFFFFFFF⟩,
   ⟨"ID3FRM",   0x1200000000000000, 0xFFFFFFFF00000000⟩,
   ⟨"ID3WALK",  0x1300000000000000, 0xFFFFFFFFF0000000⟩,
   ⟨"MPGHDR",   0x2000000000000000, 0xFFFFFFFF00000000⟩,
   ⟨"MPGDRV",   0x2100000000000000, 0xFFFFFFFF00000000⟩,
   ⟨"MPGCRC",   0x2200000000000000, 0xFFFFFFFF00000000⟩,
   ⟨"SIDEINFO", 0x3000000000000000, 0xFFFFFCFF00000000⟩]

/-- `w` spells the command of row `r`. -/
def OpcodeRow.spells (r : OpcodeRow) (w : CmdWord) : Bool := w &&& r.mask == r.pattern

/-- The rows whose command `w` spells: one for a legal word, none for an illegal one (R63, R66). -/
def rowsOf (w : CmdWord) : List OpcodeRow := opcodeTable.filter (·.spells w)

/-- `w` is a legal command word (R63). -/
def wellFormedWord (w : CmdWord) : Bool := opcodeTable.any (·.spells w)

end Sys2Proof
end

