-- ==== Sys2Proof/Decode.lean ====
section
/-! DEFINITION. The command word (30_encoding.md R62), its decoder, total on every 64-bit value and rejecting by name (R63),
and the encoder. The decoder reads the five fields of the word and tests them as R63 orders: the operation code first, then
the fields the command's row of R66 marks "0". -/

namespace Sys2Proof

/-- The five fields of a command word (R62). -/
structure Fields where
  opc : Byte
  len : Byte
  aux : Byte
  rsv : Byte
  arg : Word
  deriving DecidableEq, Repr

/-- Reading the fields: `OPC` 63:56, `LEN` 55:48, `AUX` 47:40, `RSV` 39:32, `ARG` 31:0 (R62). -/
def fieldsOf (w : CmdWord) : Fields where
  opc := w.extractLsb' 56 8
  len := w.extractLsb' 48 8
  aux := w.extractLsb' 40 8
  rsv := w.extractLsb' 32 8
  arg := w.extractLsb' 0 32

/-- Laying the fields out in a command word (R62). -/
def wordOf (f : Fields) : CmdWord := f.opc ++ f.len ++ f.aux ++ f.rsv ++ f.arg

/-- Why a word spells no command (R63). All of them raise the one kind `IllegalCommand` (R192). -/
inductive Illegal where
  /-- `OPC` is not one of the eleven values of R66. -/
  | unknownOpcode
  /-- `LEN` is not 0 in a command whose row marks it "0". -/
  | nonzeroLen
  /-- A must-be-zero bit of `AUX` is set. -/
  | nonzeroAux
  /-- `RSV` is not 0. -/
  | nonzeroRsv
  /-- A must-be-zero bit of `ARG` is set. -/
  | nonzeroArg
  deriving DecidableEq, Repr

/-- A row of R66 as the decoder uses it: which bits of each field must be zero, and the command its free bits give. -/
structure Shape where
  lenZero : Byte
  auxZero : Byte
  argZero : Word
  build : Fields → Instr

/-- The operation codes of R66. -/
def opcExtract : Byte := 0x01
def opcCset : Byte := 0x02
def opcCread : Byte := 0x03
def opcSsdec : Byte := 0x10
def opcId3hdr : Byte := 0x11
def opcId3frm : Byte := 0x12
def opcId3walk : Byte := 0x13
def opcMpghdr : Byte := 0x20
def opcMpgdrv : Byte := 0x21
def opcMpgcrc : Byte := 0x22
def opcSideinfo : Byte := 0x30

/-- The opcode map (R66): the columns `LEN`, `AUX` and `ARG`. `RSV` must be zero in every row. -/
def shapeOf (opc : Byte) : Option Shape :=
  if opc = opcExtract then some ⟨0x00, 0xFF, 0x00000000, fun f => .extract f.arg f.len⟩
  else if opc = opcCset then some ⟨0xFF, 0xFF, 0x00000000, fun f => .cset f.arg⟩
  else if opc = opcCread then some ⟨0x00, 0xFF, 0xFFFFFFFF, fun f => .cread f.len⟩
  else if opc = opcSsdec then some ⟨0xFF, 0xFF, 0x00000000, fun f => .ssdec f.arg⟩
  else if opc = opcId3hdr then some ⟨0xFF, 0xFF, 0xFFFFFFFF, fun _ => .id3hdr⟩
  else if opc = opcId3frm then some ⟨0xFF, 0xFF, 0x00000000, fun f => .id3frm f.arg⟩
  else if opc = opcId3walk then some ⟨0xFF, 0xFF, 0xF0000000, fun f => .id3walk (f.arg.extractLsb' 0 28)⟩
  else if opc = opcMpghdr then some ⟨0xFF, 0xFF, 0x00000000, fun f => .mpghdr f.arg⟩
  else if opc = opcMpgdrv then some ⟨0xFF, 0xFF, 0x00000000, fun f => .mpgdrv f.arg⟩
  else if opc = opcMpgcrc then some ⟨0xFF, 0xFF, 0x00000000, fun f => .mpgcrc f.arg⟩
  else if opc = opcSideinfo then some ⟨0xFF, 0xFC, 0x00000000, fun f => .sideinfo f.arg (f.aux.extractLsb' 0 2)⟩
  else none

/-- The decode test of R63 on the fields. -/
def decodeFields (f : Fields) : Except Illegal Instr :=
  match shapeOf f.opc with
  | none => .error .unknownOpcode
  | some sh =>
    if f.len &&& sh.lenZero ≠ 0 then .error .nonzeroLen
    else if f.aux &&& sh.auxZero ≠ 0 then .error .nonzeroAux
    else if f.rsv ≠ 0 then .error .nonzeroRsv
    else if f.arg &&& sh.argZero ≠ 0 then .error .nonzeroArg
    else .ok (sh.build f)

/-- Decoding a command word (R63): total, one command or a named reason why the word is illegal. -/
def decode (w : CmdWord) : Except Illegal Instr := decodeFields (fieldsOf w)

/-- The operation code of a command (R66): bits 63:56 of the word that spells it, which a response copies as `OPE` (R71).
DEDUCED, log entry 17. -/
def opcode : Instr → Byte
  | .extract _ _ => opcExtract
  | .cset _ => opcCset
  | .cread _ => opcCread
  | .ssdec _ => opcSsdec
  | .id3hdr => opcId3hdr
  | .id3frm _ => opcId3frm
  | .id3walk _ => opcId3walk
  | .mpghdr _ => opcMpghdr
  | .mpgdrv _ => opcMpgdrv
  | .mpgcrc _ => opcMpgcrc
  | .sideinfo _ _ => opcSideinfo

/-- The fields that spell a command (R66, R69): every field the row marks "0" is 0. -/
def encodeFields (i : Instr) : Fields :=
  match i with
  | .extract off len => ⟨opcExtract, len, 0, 0, off⟩
  | .cset pos => ⟨opcCset, 0, 0, 0, pos⟩
  | .cread len => ⟨opcCread, len, 0, 0, 0⟩
  | .ssdec base => ⟨opcSsdec, 0, 0, 0, base⟩
  | .id3hdr => ⟨opcId3hdr, 0, 0, 0, 0⟩
  | .id3frm base => ⟨opcId3frm, 0, 0, 0, base⟩
  | .id3walk tagsize => ⟨opcId3walk, 0, 0, 0, tagsize.setWidth 32⟩
  | .mpghdr base => ⟨opcMpghdr, 0, 0, 0, base⟩
  | .mpgdrv hdr => ⟨opcMpgdrv, 0, 0, 0, hdr⟩
  | .mpgcrc base => ⟨opcMpgcrc, 0, 0, 0, base⟩
  | .sideinfo base cm => ⟨opcSideinfo, 0, cm.setWidth 8, 0, base⟩

/-- The command word that spells a command (R62, R66). -/
def encode (i : Instr) : CmdWord := wordOf (encodeFields i)

/-- The command word whose bits are `w`, of which the table gives the lowest `nbits` (bit 0 least significant, R62). How the
64 bits are carried to the block is not specified (R62), so the word has no byte order: it is taken whole. -/
def tableWord (nbits w : Nat) : CmdWord := BitVec.ofNat 64 (w % 2 ^ nbits)

/-- The instruction the decoder reads from the word whose bits are `w`, `none` where it refuses. -/
def decodeTableWord (nbits w : Nat) : Option Instr := (decode (tableWord nbits w)).toOption

end Sys2Proof
end

