-- ==== Sys2Proof/Machine/State.lean ====
section
/-! DEFINITION. The state of the machine as plain data, the reasons it can stop, and the state after reset (10_state.md). The
block's state is the type `Block`: `buf`, `bufLen` and `pos` and nothing else (R20). What a step works on, `State`, is the
block together with the host's side of the interface (70_reset_and_hazards.md R226), `HostSide`, because a step has no other
place for a command word that comes in and a response that goes out (30_encoding.md R61). -/

namespace Sys2Proof.Machine

/-- The buffer's contents as cells (index, byte), in canonical form (`Memory.wf`). An index that is not listed holds
`unlistedByte`. -/
abbrev Memory := List Host.Cell

/-- DESIGN CHOICE (unsafe): what an index that nothing has loaded reads as. The spec leaves it unspecified (R29, R30) and no
rule reads such an index (R44). Log entry 3. -/
def unlistedByte : Byte := 0

/-- The indices rise strictly from `low` on, and no entry equals what an unlisted index reads as. -/
def Memory.wfFrom : Nat → Memory → Bool
  | _, [] => true
  | low, (a, v) :: rest => decide (low ≤ a) && decide (v ≠ unlistedByte) && Memory.wfFrom (a + 1) rest

/-- The canonical form of memory: indices strictly rising, no entry equal to `unlistedByte`. -/
def Memory.wf (m : Memory) : Bool := Memory.wfFrom 0 m

/-- What a buffer-reading command sees of the state: `BUF` and `BUF_LEN` (R65). -/
structure Buffer where
  mem : Memory
  len : Nat
  deriving DecidableEq, Repr

/-- What the host can do to the block, each between commands (R226). -/
inductive HostOp where
  /-- `SETBUF(s)`: load a byte sequence (R30). -/
  | setbuf (bytes : List Byte)
  /-- Present one 64-bit command word (R60). -/
  | command (w : CmdWord)
  /-- The reset event (R220). -/
  | reset
  deriving DecidableEq, Repr

/-- One response: the status word and, on success only, payload words (R70, R71, R72). -/
structure Response where
  status : Word
  payload : List Word
  deriving DecidableEq, Repr

/-- The architectural state of the block: exactly three things and no other (R20). A command's meaning is a function of
this type and cannot name anything else. -/
structure Block where
  /-- `BUF` (R21). -/
  buf : Memory
  /-- `BUF_LEN`, 32 bits (R20, R22). -/
  bufLen : Word
  /-- `POS`, 32 bits (R23). -/
  pos : Word
  deriving DecidableEq, Repr

/-- The host's side of the interface (R226), which is the model's own and no state of the block: what the host is about to
give it, and the record of what it was answered. -/
structure HostSide where
  /-- Host operations presented and not yet taken, the next one first. DESIGN CHOICE, log entry 1. -/
  pending : List HostOp
  /-- The responses the host has been given, oldest first: the list that R226 calls the result of a run. DESIGN CHOICE, log
  entry 2. -/
  responses : List Response
  deriving DecidableEq, Repr

/-- What a step works on: the block (`toBlock`) and its host's side (`toHostSide`). -/
structure State extends Block, HostSide where
  deriving DecidableEq, Repr

/-- Why the machine stops with a fault: never. Every command word has a response (93_implementation_defined.md), an error
kind is a response and no fault (R190, R195), and no command reads outside the buffer (R44). -/
inductive Fault where
  deriving DecidableEq, Repr

/-- Why the machine has no move. -/
inductive Refusal where
  /-- Raised by `exec` alone, for a command that has no meaning yet (there is none). Safe: the machine stops. -/
  | notModelled (mnemonic : String)
  /-- Raised by the host operation SETBUF with more than `BUF_CAP` bytes, which R30 forbids the host: the model has no such
  move. Safe: the machine stops. Log entry 5. -/
  | bufferTooLong
  deriving DecidableEq, Repr

/-- The block after reset (R29, R220): `POS` = 0, `BUF_LEN` = 0, and nothing listed in `BUF`, whose contents the spec leaves
unspecified (log entry 3). -/
def Block.reset : Block where
  buf := []
  bufLen := 0
  pos := 0

/-- The state after reset (R29, R220): the block's, with no command in progress and none presented. -/
def State.reset : State where
  toBlock := Block.reset
  pending := []
  responses := []

end Sys2Proof.Machine
end

