-- ==== Sys2Proof/Machine/Flags.lean ====
section
/-! DEFINITION. The block has no flags (10_state.md R27). What a command reports about itself is the status word of its
response: the error kinds and their numbers (60_exceptions.md R191) and the status word's layout (30_encoding.md R71). -/

namespace Sys2Proof.Machine

/-- The error kinds of R191, one constructor per row below OK (R196: a closed enumeration). -/
inductive ErrorKind where
  | invalidHeaderFlags
  | unsupportedVersion
  | invalidSynchsafeSize
  | invalidEncoding
  | outOfRange
  | badFrameSync
  | reservedField
  | invalidBitrateIndex
  | invalidSampleRateIndex
  | checksumMismatch
  | unsupportedFieldWidth
  | illegalCommand
  deriving DecidableEq, Repr

/-- The number of an error kind in `ERR` (R191); 0 is OK. -/
def errNumber : ErrorKind → Byte
  | .invalidHeaderFlags => 1
  | .unsupportedVersion => 2
  | .invalidSynchsafeSize => 3
  | .invalidEncoding => 4
  | .outOfRange => 5
  | .badFrameSync => 6
  | .reservedField => 7
  | .invalidBitrateIndex => 8
  | .invalidSampleRateIndex => 9
  | .checksumMismatch => 10
  | .unsupportedFieldWidth => 11
  | .illegalCommand => 12

/-- `ERR` of success (R191). -/
def errOk : Byte := 0

/-- The status word (R71): bits 7:0 `ERR`, bits 15:8 `OPE`, bits 31:16 zero. -/
def statusWord (ope err : Byte) : Word := (0 : BitVec 16) ++ ope ++ err

/-- The response of a command that succeeds (R71). -/
def okResponse (ope : Byte) (payload : List Word) : Response := ⟨statusWord ope errOk, payload⟩

/-- The response of a command that raises `e`: the status word alone (R72). -/
def errorResponse (ope : Byte) (e : ErrorKind) : Response := ⟨statusWord ope (errNumber e), []⟩

end Sys2Proof.Machine
end

