-- ==== Sys2Proof/Machine/Ops.lean ====
section
/-! DEFINITION. The named operations over the state: reading a byte of the buffer, loading the buffer (10_state.md R30), reset
(70_reset_and_hazards.md R220), giving a response, and raising an error, which is the block's one exceptional event
(60_exceptions.md R190, R195). There is no handler, so there is no return from an exception (R197): the next command runs
from the state the error left, which is the state before it. -/

namespace Sys2Proof.Machine

/-- The outcome of a command's decoding work: a value, or the one error kind it raises (R190). -/
abbrev Result (α : Type) := Except ErrorKind α

/-- `raise e` unless `c` holds (R11). -/
def require (c : Prop) [Decidable c] (e : ErrorKind) : Result Unit := if c then .ok () else .error e

/-- The byte at an index of memory. -/
def readCell : Memory → Nat → Byte
  | [], _ => unlistedByte
  | (a, v) :: rest, i => if a = i then v else readCell rest i

/-- The buffer a command reads: `BUF` and `BUF_LEN` (R46: the fields of the block it was given and nothing else). -/
def blockBuffer (b : Block) : Buffer := ⟨b.buf, b.bufLen.toNat⟩

/-- The buffer of a state's block. -/
def bufferOf (s : State) : Buffer := blockBuffer s.toBlock

/-- `BUF[i]` (R11). Every rule checks the range before it reads (R44). -/
def byteAt (b : Buffer) (i : Nat) : Byte := readCell b.mem i

/-- The cells of a byte sequence loaded from index `a` on, in canonical form. -/
def loadBytes : Nat → List Byte → Memory
  | _, [] => []
  | a, v :: rest => if v = unlistedByte then loadBytes (a + 1) rest else (a, v) :: loadBytes (a + 1) rest

/-- A state with another block and the same host's side. -/
def withBlock (b : Block) (s : State) : State := { s with toBlock := b }

/-- Give a response (R70). The block keeps no copy: the list is the host's. -/
def respond (r : Response) (s : State) : State := { s with responses := s.responses ++ [r] }

/-- `POS <- p` (R11). -/
def setPos (p : Word) (b : Block) : Block := { b with pos := p }

/-- Error entry (R195): the response is the status word alone and no other state changes; nothing is saved, no mode changes
and control goes nowhere. -/
def raise (ope : Byte) (e : ErrorKind) (s : State) : State := respond (errorResponse ope e) s

/-- One command (R61): block before in, block after and payload out, or an error kind (R190). What the command does is a
function of the block alone (R20); an error leaves the block as it was (R195). -/
def perform (ope : Byte) (command : Block → Result (Block × List Word)) (s : State) :
    Host.Outcome State Fault Refusal :=
  match command s.toBlock with
  | .ok (b, payload) => .next (respond (okResponse ope payload) (withBlock b s))
  | .error e => .next (raise ope e s)

/-- A command that writes no state: it has a payload or an error kind alone. -/
def answer (ope : Byte) (command : Block → Result (List Word)) (s : State) : Host.Outcome State Fault Refusal :=
  perform ope (fun b => (command b).map fun payload => (b, payload)) s

/-- A natural as a payload word of `RES_W` bits (R12). Every value a rule returns fits in a state that meets the invariant:
DEDUCED, log entry 18. -/
def payloadWord (v : Nat) : Word := BitVec.ofNat 32 v

/-- An illegal word (R192): `IllegalCommand` with the word's bits 63:56 as `OPE` (R71), no state read, none changed. -/
def illegalCommand (w : CmdWord) (s : State) : State := raise (w.extractLsb' 56 8) .illegalCommand s

/-- `SETBUF(bytes)` (R30): the bytes, their number, and the cursor at 0. Entries at or beyond the new `BUF_LEN` become
unspecified: here they are unlisted (DESIGN CHOICE, log entry 4). A sequence longer than `BUF_CAP` is no move of the host's
(log entry 5). -/
def setBuf (bytes : List Byte) (s : State) : Host.Outcome State Fault Refusal :=
  if bytes.length ≤ Config.bufCap then
    .next (withBlock { buf := loadBytes 0 bytes, bufLen := BitVec.ofNat 32 bytes.length, pos := 0 } s)
  else .refused .bufferTooLong

/-- The reset event (R220): the block's state becomes that of R29. What the host has presented and what it was answered lie
outside the block and stay (DESIGN CHOICE, log entry 16). -/
def resetBlock (s : State) : State := withBlock Block.reset s

/-- The next host operation and the state with it taken; `none` when the host has presented nothing (R60, R226). -/
def takeHostOp (s : State) : Option (HostOp × State) :=
  match s.pending with
  | [] => none
  | op :: rest => some (op, { s with pending := rest })

/-- The host presents a command word as the very next operation. -/
def presentCommand (w : CmdWord) (s : State) : State := { s with pending := .command w :: s.pending }

end Sys2Proof.Machine
end

