-- ==== Sys2Proof/Machine/Operands.lean ====
section
/-! DEFINITION. How commands read the buffer: the range check and the multi-byte reads (20_memory.md R44, 00_scope.md R11),
the bit-field extraction `XB` (40_bit_extract.md R90) and the local cursor (R98). All sums are on naturals and never wrap
(R7, R40). The addressing forms of R53 are `xb b 0 off len` (absolute), `xb b 0 POS len` with `POS` advanced after it
(cursor-relative), and `rd` or a fixed byte of a view (view-relative). -/

namespace Sys2Proof.Machine

/-- The `n` bytes from index `a` as one natural, big-endian: Σ `BUF[a+i]` · 256^(n-1-i) (R11, R42). -/
def bigEndian (b : Buffer) : Nat → Nat → Nat
  | _, 0 => 0
  | a, n + 1 => (byteAt b a).toNat * 256 ^ n + bigEndian b (a + 1) n

/-- The `n` bytes from index `a` in order. -/
def byteList (b : Buffer) : Nat → Nat → List Byte
  | _, 0 => []
  | a, n + 1 => byteAt b a :: byteList b (a + 1) n

/-- `MemRead(a, n)` (R11): range check, then the bytes as one natural. -/
def memRead (b : Buffer) (a n : Nat) : Result Nat := do
  require (a + n ≤ b.len) .outOfRange
  .ok (bigEndian b a n)

/-- `bytes(a, n)` (R11): range check, then the bytes as a sequence. -/
def bytes (b : Buffer) (a n : Nat) : Result (List Byte) := do
  require (a + n ≤ b.len) .outOfRange
  .ok (byteList b a n)

/-- Buffer bit `k` seen from byte `base`: `BUF[base + k / 8][7 - (k mod 8)]` (R9). -/
def bufBit (b : Buffer) (base k : Nat) : Nat := ((byteAt b (base + k / 8)).toNat >>> (7 - k % 8)) % 2

/-- `start_byte` of the field of `len` bits at absolute bit `a` (R90). -/
def startByte (a : Nat) : Nat := a / 8

/-- `end_byte` = ceil((a + len) / 8) (R90). -/
def endByte (a len : Nat) : Nat := (a + len + 7) / 8

/-- `shift`, 0 to 7 (R90). -/
def fieldShift (a len : Nat) : Nat := (8 - (a + len) % 8) % 8

/-- `XB(base, off, len)` (R90): the length check first (R92), the range check second, then load, shift and mask. -/
def xb (b : Buffer) (base off len : Nat) : Result Nat := do
  require (1 ≤ len ∧ len ≤ 32) .unsupportedFieldWidth
  let a := 8 * base + off
  require (endByte a len ≤ b.len) .outOfRange
  let acc ← memRead b (startByte a) (endByte a len - startByte a)
  .ok ((acc >>> fieldShift a len) &&& ((1 <<< len) - 1))

/-- A local cursor (R98): a view base and a bit counter. It lives for one command and is not `POS` (R28). -/
structure Cursor where
  base : Nat
  count : Nat
  deriving DecidableEq, Repr

/-- `rd(n)` (R98): the next `n` bits, and the cursor past them. -/
def rd (b : Buffer) (c : Cursor) (n : Nat) : Result (Nat × Cursor) := do
  let v ← xb b c.base c.count n
  .ok (v, { c with count := c.count + n })

end Sys2Proof.Machine
end

