-- ==== Sys2Proof/Machine/Extract.lean ====
section
/-! DEFINITION. The bit-field extractor's commands EXTRACT, CSET and CREAD (40_bit_extract.md R94, R95, R96). -/

namespace Sys2Proof.Machine

/-- EXTRACT off, len (R94): a stateless bit-field read at the absolute bit offset `off`. -/
def execExtract (off : Word) (len : Byte) (s : State) : Host.Outcome State Fault Refusal :=
  answer opcExtract (fun b => do
    let v ← xb (blockBuffer b) 0 off.toNat len.toNat
    .ok [payloadWord v]) s

/-- CSET pos (R95): set the cursor; it cannot fail. -/
def execCset (pos : Word) (s : State) : Host.Outcome State Fault Refusal :=
  perform opcCset (fun b => .ok (setPos pos b, [pos])) s

/-- CREAD len (R96): read at the cursor and, on success only, advance it. The advanced position is the exact sum (R24: in
every buffer of at most `BUF_CAP` bytes it fits 32 bits). -/
def execCread (len : Byte) (s : State) : Host.Outcome State Fault Refusal :=
  perform opcCread (fun b => do
    let v ← xb (blockBuffer b) 0 b.pos.toNat len.toNat
    let p := payloadWord (b.pos.toNat + len.toNat)
    .ok (setPos p b, [payloadWord v, p])) s

end Sys2Proof.Machine
end

