-- ==== Sys2Proof/Machine/Id3.lean ====
section
/-! DEFINITION. The ID3v2.3 tag validators SSDEC, ID3HDR, ID3FRM and ID3WALK (41_id3.md). -/

namespace Sys2Proof.Machine

/-- Bits 6:0 of a byte as a natural. -/
def low7 (v : Byte) : Nat := v.toNat % 128

/-- The synchsafe decode `SS(p)` (R115). -/
def ss (b : Buffer) (p : Nat) : Result Nat := do
  require (p + 4 ≤ b.len) .outOfRange
  require ((byteAt b p).toNat < 128) .invalidSynchsafeSize
  require ((byteAt b (p + 1)).toNat < 128) .invalidSynchsafeSize
  require ((byteAt b (p + 2)).toNat < 128) .invalidSynchsafeSize
  require ((byteAt b (p + 3)).toNat < 128) .invalidSynchsafeSize
  .ok (low7 (byteAt b p) <<< 21 ||| low7 (byteAt b (p + 1)) <<< 14
    ||| low7 (byteAt b (p + 2)) <<< 7 ||| low7 (byteAt b (p + 3)))

/-- SSDEC base (R111). -/
def execSsdec (base : Word) (s : State) : Host.Outcome State Fault Refusal :=
  answer opcSsdec (fun b => do
    let v ← ss (blockBuffer b) base.toNat
    .ok [payloadWord v]) s

/-- The record `Id3Header` (R113). -/
structure Id3Header where
  size : Nat
  unsynchronization : Bool
  extendedHeaderPresent : Bool
  experimental : Bool
  deriving DecidableEq, Repr

/-- The three flag bits at their positions in the flags byte (R112): 7, 6 and 5, all other bits 0. -/
def id3FlagsWord (h : Id3Header) : Word :=
  (0 : BitVec 24) ++ BitVec.ofBool h.unsynchronization ++ BitVec.ofBool h.extendedHeaderPresent
    ++ BitVec.ofBool h.experimental ++ (0 : BitVec 5)

/-- The tag header at bytes 0 to 9 (R112). The marker (bytes 0 to 2) is not compared and the minor version (byte 4) is not
read. -/
def id3Header (b : Buffer) : Result Id3Header := do
  require (10 ≤ b.len) .outOfRange
  let major := byteAt b 3
  let flags := byteAt b 5
  require (major = 3) .unsupportedVersion
  require (flags.extractLsb' 0 5 = 0) .invalidHeaderFlags
  let size ← ss b 6
  .ok ⟨size, flags.getLsbD 7, flags.getLsbD 6, flags.getLsbD 5⟩

/-- ID3HDR (R112). The flags are reported and nothing else is done with them (R114). -/
def execId3hdr (s : State) : Host.Outcome State Fault Refusal :=
  answer opcId3hdr (fun b => do
    let h ← id3Header (blockBuffer b)
    .ok [payloadWord h.size, id3FlagsWord h]) s

/-- The byte patterns of well-formed UTF-8 (R116): one row per row of the table, the range of each byte in order. PRESUMED
(the spec's general knowledge, GK1). Log entry 10. -/
def utf8Rows : List (List (Byte × Byte)) :=
  [[(0x00, 0x7F)],
   [(0xC2, 0xDF), (0x80, 0xBF)],
   [(0xE0, 0xE0), (0xA0, 0xBF), (0x80, 0xBF)],
   [(0xE1, 0xEC), (0x80, 0xBF), (0x80, 0xBF)],
   [(0xED, 0xED), (0x80, 0x9F), (0x80, 0xBF)],
   [(0xEE, 0xEF), (0x80, 0xBF), (0x80, 0xBF)],
   [(0xF0, 0xF0), (0x90, 0xBF), (0x80, 0xBF), (0x80, 0xBF)],
   [(0xF1, 0xF3), (0x80, 0xBF), (0x80, 0xBF), (0x80, 0xBF)],
   [(0xF4, 0xF4), (0x80, 0x8F), (0x80, 0xBF), (0x80, 0xBF)]]

/-- What is left of a sequence after one byte pattern, `none` where the sequence does not begin with it. -/
def dropPattern : List (Byte × Byte) → List Byte → Option (List Byte)
  | [], s => some s
  | _ :: _, [] => none
  | (lo, hi) :: row, v :: s => if lo ≤ v ∧ v ≤ hi then dropPattern row s else none

/-- What is left of a sequence after one character, by the first row that fits. -/
def dropChar (s : List Byte) : Option (List Byte) := utf8Rows.findSome? (fun row => dropPattern row s)

/-- `utf8Valid` with a bound on the number of characters. -/
def utf8Chars : Nat → List Byte → Bool
  | _, [] => true
  | 0, _ :: _ => false
  | n + 1, v :: s =>
    match dropChar (v :: s) with
    | none => false
    | some rest => utf8Chars n rest

/-- `utf8_valid(s)` (R116): `s` is a concatenation of byte patterns and nothing else. A sequence has no more characters than
bytes. -/
def utf8Valid (s : List Byte) : Bool := utf8Chars s.length s

/-- The record `Id3Frame` (R118) as a response reports it: the content is the byte range of `size` bytes from `cstart`. -/
structure Id3Frame where
  id : Nat
  size : Nat
  cstart : Nat
  deriving DecidableEq, Repr

/-- The three response words of a frame (R117). -/
def frameWords (f : Id3Frame) : List Word := [payloadWord f.id, payloadWord f.size, payloadWord f.cstart]

/-- `FRM(b)` (R117): one frame whose header starts at byte `p`. -/
def frm (b : Buffer) (p : Nat) : Result Id3Frame := do
  require (p + 10 ≤ b.len) .outOfRange
  let name ← bytes b p 4
  require (utf8Valid name = true) .invalidEncoding
  let size ← ss b (p + 4)
  require (p + 10 + size ≤ b.len) .outOfRange
  let content ← bytes b (p + 10) size
  require (utf8Valid content = true) .invalidEncoding
  let id ← memRead b p 4
  .ok ⟨id, size, p + 10⟩

/-- ID3FRM base (R117). -/
def execId3frm (base : Word) (s : State) : Host.Outcome State Fault Refusal :=
  answer opcId3frm (fun b => do
    let f ← frm (blockBuffer b) base.toNat
    .ok (frameWords f)) s

/-- The walk loop (R125) from offset `off`, with at most the given number of turns: the frames in walk order and the offset
at which the loop stopped. The stop test comes before each decode. -/
def walkFrom (b : Buffer) (stop : Nat) : Nat → Nat → Result (List Id3Frame × Nat)
  | 0, off => .ok ([], off)
  | turns + 1, off =>
    if off < stop then do
      let f ← frm b off
      let (fs, next) ← walkFrom b stop turns (off + 10 + f.size)
      .ok (f :: fs, next)
    else .ok ([], off)

/-- The walk of a tag of `tagsize` bytes (R125). ceil(`tagsize` / 10) turns are all the loop can make (R126): DEDUCED, log
entry 15. -/
def id3Walk (b : Buffer) (tagsize : Nat) : Result (List Id3Frame × Nat) :=
  walkFrom b (tagsize + 10) ((tagsize + 9) / 10) 10

/-- The payload of ID3WALK (R125): the number of frames, three words per frame, `next_offset`. -/
def walkWords (fs : List Id3Frame) (next : Nat) : List Word :=
  payloadWord fs.length :: fs.flatMap frameWords ++ [payloadWord next]

/-- ID3WALK tagsize (R125). -/
def execId3walk (tagsize : BitVec 28) (s : State) : Host.Outcome State Fault Refusal :=
  answer opcId3walk (fun b => do
    let (fs, next) ← id3Walk (blockBuffer b) tagsize.toNat
    .ok (walkWords fs next)) s

end Sys2Proof.Machine
end

