-- ==== Sys2Proof/Machine/Tables.lean ====
section
/-! DEFINITION. The contents of the block's parameters: the codings of the tagged header fields (42_mpeg_header.md R143 to
R146), the bitrate tables (R148), the sample-rate tables (R149) and the choice of table (R151). The codings and bitrates are
the spec's defaults, most of them from general knowledge (93_implementation_defined.md GK2, GK3): PRESUMED, log entries 8
and 9. -/

namespace Sys2Proof.Machine

/-- `version_of` (R143). -/
def versionOf (v : BitVec 2) : Version :=
  if v = 0b00 then .mpeg25 else if v = 0b01 then .reserved else if v = 0b10 then .mpeg2 else .mpeg1

/-- `layer_of` (R144). -/
def layerOf (l : BitVec 2) : Layer :=
  if l = 0b00 then .reserved else if l = 0b01 then .layerIII else if l = 0b10 then .layerII else .layerI

/-- `protection_of` (R145). -/
def protectionOf (p : BitVec 1) : Protection := if p = 0 then .crcPresent else .notProtected

/-- `channel_mode_of` (R146). -/
def channelModeOf (c : BitVec 2) : ChannelMode :=
  if c = 0b00 then .stereo else if c = 0b01 then .jointStereo else if c = 0b10 then .dualChannel else .singleChannel

/-- The bitrate tables in kbps, 15 entries each (R148). -/
def bitrateKbps : BitrateTable → List Nat
  | .v1l1 => [0, 32, 64, 96, 128, 160, 192, 224, 256, 288, 320, 352, 384, 416, 448]
  | .v1l2 => [0, 32, 48, 56, 64, 80, 96, 112, 128, 160, 192, 224, 256, 320, 384]
  | .v1l3 => [0, 32, 40, 48, 56, 64, 80, 96, 112, 128, 160, 192, 224, 256, 320]
  | .v2l1 => [0, 32, 48, 56, 64, 80, 96, 112, 128, 144, 160, 176, 192, 224, 256]
  | .v2l2l3 => [0, 8, 16, 24, 32, 40, 48, 56, 64, 80, 96, 112, 128, 144, 160]

/-- The sample-rate tables in Hz, 3 entries each (R149); a Reserved version has none. -/
def sampleRateHz : Version → List Nat
  | .mpeg1 => [44100, 48000, 32000]
  | .mpeg2 => [22050, 24000, 16000]
  | .mpeg25 => [11025, 12000, 8000]
  | .reserved => []

/-- Which bitrate table a version and a layer select (R151); `none` exactly when one of them is Reserved. -/
def bitrateTable : Version → Layer → Option BitrateTable
  | .reserved, _ => none
  | _, .reserved => none
  | .mpeg1, .layerI => some .v1l1
  | .mpeg1, .layerII => some .v1l2
  | .mpeg1, .layerIII => some .v1l3
  | .mpeg2, .layerI => some .v2l1
  | .mpeg25, .layerI => some .v2l1
  | .mpeg2, .layerII => some .v2l2l3
  | .mpeg2, .layerIII => some .v2l2l3
  | .mpeg25, .layerII => some .v2l2l3
  | .mpeg25, .layerIII => some .v2l2l3

/-- The parameters of this block: the defaults above and the OPEN checksum (R6). -/
def blockParams : Params where
  versionOf := versionOf
  layerOf := layerOf
  protectionOf := protectionOf
  channelModeOf := channelModeOf
  bitrateKbps := bitrateKbps
  crc16X25 := Config.crc16X25

end Sys2Proof.Machine
end

