-- ==== Sys2Proof/Machine/Mpeg.lean ====
section
/-! DEFINITION. The MPEG audio frame-header validators MPGHDR, MPGDRV and MPGCRC (42_mpeg_header.md). The functions that look
up a coding, a bitrate or the checksum take the parameters as an argument, so that a claim can say which it rests on. -/

namespace Sys2Proof.Machine

/-- `HDRDEC(b)` (R142): thirteen reads with a local cursor, the sync test, and the header image `H` (R140). -/
def hdrdec (b : Buffer) (base : Nat) : Result Word := do
  require (base + 4 ≤ b.len) .outOfRange
  let (sync, c) ← rd b ⟨base, 0⟩ 11
  let (version, c) ← rd b c 2
  let (layer, c) ← rd b c 2
  let (protection, c) ← rd b c 1
  let (bitrateIndex, c) ← rd b c 4
  let (samplingRateIndex, c) ← rd b c 2
  let (padding, c) ← rd b c 1
  let (privateBit, c) ← rd b c 1
  let (channelMode, c) ← rd b c 2
  let (modeExtension, c) ← rd b c 2
  let (copyright, c) ← rd b c 1
  let (original, c) ← rd b c 1
  let (emphasis, _) ← rd b c 2
  require (sync = 0x7FF) .badFrameSync
  .ok (payloadWord (sync <<< 21 ||| version <<< 19 ||| layer <<< 17 ||| protection <<< 16
    ||| bitrateIndex <<< 12 ||| samplingRateIndex <<< 10 ||| padding <<< 9 ||| privateBit <<< 8
    ||| channelMode <<< 6 ||| modeExtension <<< 4 ||| copyright <<< 3 ||| original <<< 2 ||| emphasis))

/-- MPGHDR base (R142). -/
def execMpghdr (base : Word) (s : State) : Host.Outcome State Fault Refusal :=
  answer opcMpghdr (fun b => do
    let h ← hdrdec (blockBuffer b) base.toNat
    .ok [h]) s

/-- The record `MpegFrameHeader` (R141): no `sync` field. -/
structure MpegFrameHeader where
  version : Version
  layer : Layer
  protection : Protection
  bitrateIndex : BitVec 4
  samplingRateIndex : BitVec 2
  padding : Bool
  privateBit : Bool
  channelMode : ChannelMode
  modeExtension : BitVec 2
  copyright : Bool
  original : Bool
  emphasis : BitVec 2
  deriving DecidableEq, Repr

/-- The record a header image stands for (R140, R141): tagged fields through the codings, booleans and raw fields as the
bits are. `h[31:21]` is ignored. -/
def headerOf (p : Params) (h : Word) : MpegFrameHeader where
  version := p.versionOf (h.extractLsb' 19 2)
  layer := p.layerOf (h.extractLsb' 17 2)
  protection := p.protectionOf (h.extractLsb' 16 1)
  bitrateIndex := h.extractLsb' 12 4
  samplingRateIndex := h.extractLsb' 10 2
  padding := h.getLsbD 9
  privateBit := h.getLsbD 8
  channelMode := p.channelModeOf (h.extractLsb' 6 2)
  modeExtension := h.extractLsb' 4 2
  copyright := h.getLsbD 3
  original := h.getLsbD 2
  emphasis := h.extractLsb' 0 2

/-- The record `DerivedFrameValues` (R150): bits per second, Hz, bytes. -/
structure DerivedFrameValues where
  bitrate : Nat
  sampleRate : Nat
  frameLengthBytes : Nat
  deriving DecidableEq, Repr

/-- Frame length in bytes (R152): product first, truncating division; `pad` counts 1 when the bit is set. -/
def frameLength (l : Layer) (bitrate sampleRate : Nat) (padding : Bool) : Nat :=
  if l = .layerI then ((12 * bitrate) / sampleRate + padding.toNat) * 4
  else (144 * bitrate) / sampleRate + padding.toNat

/-- `validate_and_derive(header)` (R147). A table is selected exactly when neither `version` nor `layer` is Reserved (R151).
The indices that remain after the checks lie in the tables, which have 15 and 3 entries (R148, R149). -/
def validateAndDerive (p : Params) (hdr : MpegFrameHeader) : Result DerivedFrameValues :=
  match bitrateTable hdr.version hdr.layer with
  | none => .error .reservedField
  | some t => do
    require (hdr.bitrateIndex ≠ 0 ∧ hdr.bitrateIndex ≠ 15) .invalidBitrateIndex
    require (hdr.samplingRateIndex ≠ 3) .invalidSampleRateIndex
    let bitrate := (p.bitrateKbps t).getD hdr.bitrateIndex.toNat 0 * 1000
    let sampleRate := (sampleRateHz hdr.version).getD hdr.samplingRateIndex.toNat 0
    .ok ⟨bitrate, sampleRate, frameLength hdr.layer bitrate sampleRate hdr.padding⟩

/-- `DRV(h)` (R147) on a header image. -/
def drv (p : Params) (h : Word) : Result DerivedFrameValues := validateAndDerive p (headerOf p h)

/-- MPGDRV hdr (R147): reads no state. -/
def execMpgdrv (hdr : Word) (s : State) : Host.Outcome State Fault Refusal :=
  answer opcMpgdrv (fun _ => do
    let d ← drv blockParams hdr
    .ok [payloadWord d.bitrate, payloadWord d.sampleRate, payloadWord d.frameLengthBytes]) s

/-- `crc_range(BASE, flen)`: the bytes the checksum covers (R157), all `flen` bytes from `base`, none left out. -/
def crcRange (b : Buffer) (base flen : Nat) : Result (List Byte) := bytes b base flen

/-- The verdict of MPGCRC (R156): 0 for a NotProtected frame, bit 16 and the embedded value for a match. -/
def mpgcrc (p : Params) (b : Buffer) (base : Nat) : Result Word := do
  let h ← hdrdec b base
  let d ← drv p h
  if (headerOf p h).protection = .notProtected then .ok 0
  else do
    require (base + 6 ≤ b.len) .outOfRange
    require (base + d.frameLengthBytes ≤ b.len) .outOfRange
    let embedded ← memRead b (base + 4) 2
    let covered ← crcRange b base d.frameLengthBytes
    require ((p.crc16X25 covered).toNat = embedded) .checksumMismatch
    .ok (payloadWord (0x10000 ||| embedded))

/-- MPGCRC base (R156). -/
def execMpgcrc (base : Word) (s : State) : Host.Outcome State Fault Refusal :=
  answer opcMpgcrc (fun b => do
    let v ← mpgcrc blockParams (blockBuffer b) base.toNat
    .ok [v]) s

end Sys2Proof.Machine
end

