-- ==== Sys2Proof/Machine/SideInfo.lean ====
section
/-! DEFINITION. The side-information decoder SIDEINFO (43_side_info.md): the source's own simplified layout, one run of
adjacent fields whose widths depend on the channel mode and on nothing in the data (R170, R177). -/

namespace Sys2Proof.Machine

/-- The record `Granule` (R173, R176): eleven decoded fields and three that are always zero. -/
structure Granule where
  part23Length : Nat
  bigValues : Nat
  globalGain : Nat
  scalefacCompress : Nat
  windowSwitchingFlag : Nat
  tableSelect : Nat
  region0Count : Nat
  region1Count : Nat
  preflag : Nat
  scalefacScale : Nat
  count1tableSelect : Nat
  blockType : Nat
  mixedBlockFlag : Nat
  subblockGain : Nat
  deriving DecidableEq, Repr

/-- The record `SideInformation` (R171), and the number of bits the decode consumed (R172). -/
structure SideInformation where
  mainDataBegin : Nat
  privateBits : Nat
  scfsi : Nat
  granule0 : Granule
  granule1 : Granule
  bitsConsumed : Nat
  deriving DecidableEq, Repr

/-- The widths that differ between the two layouts (R170): `private_bits`, `scfsi`, and the eleven fields of a granule in
the order of R173. -/
structure Layout where
  privateBits : Nat
  scfsi : Nat
  part23Length : Nat
  bigValues : Nat
  globalGain : Nat
  scalefacCompress : Nat
  windowSwitchingFlag : Nat
  tableSelect : Nat
  region0Count : Nat
  region1Count : Nat
  preflag : Nat
  scalefacScale : Nat
  count1tableSelect : Nat
  deriving DecidableEq, Repr

/-- The single-channel layout: `wp`, `ws` and `W_SC` (R172). -/
def layoutSC : Layout := ⟨3, 4, 12, 9, 8, 4, 1, 20, 4, 3, 1, 1, 1⟩

/-- The multi-channel layout: `wp`, `ws` and `W_MC` (R172). -/
def layoutMC : Layout := ⟨5, 8, 24, 18, 16, 8, 2, 30, 8, 6, 2, 2, 2⟩

/-- `single(CM)` selects the single-channel layout, every other channel mode the multi-channel one (R146, R172). -/
def layoutOf (p : Params) (cm : BitVec 2) : Layout :=
  if p.channelModeOf cm = .singleChannel then layoutSC else layoutMC

/-- `GRANULE(w)` (R172) with the command's local cursor. No bits are consumed for the three zero-filled fields (R176). -/
def readGranule (b : Buffer) (w : Layout) (c : Cursor) : Result (Granule × Cursor) := do
  let (part23Length, c) ← rd b c w.part23Length
  let (bigValues, c) ← rd b c w.bigValues
  let (globalGain, c) ← rd b c w.globalGain
  let (scalefacCompress, c) ← rd b c w.scalefacCompress
  let (windowSwitchingFlag, c) ← rd b c w.windowSwitchingFlag
  let (tableSelect, c) ← rd b c w.tableSelect
  let (region0Count, c) ← rd b c w.region0Count
  let (region1Count, c) ← rd b c w.region1Count
  let (preflag, c) ← rd b c w.preflag
  let (scalefacScale, c) ← rd b c w.scalefacScale
  let (count1tableSelect, c) ← rd b c w.count1tableSelect
  .ok (⟨part23Length, bigValues, globalGain, scalefacCompress, windowSwitchingFlag, tableSelect, region0Count,
    region1Count, preflag, scalefacScale, count1tableSelect, 0, 0, 0⟩, c)

/-- The side information whose first byte is at `base` (R172). The view has no end of its own (R175). -/
def sideInformation (p : Params) (b : Buffer) (base : Nat) (cm : BitVec 2) : Result SideInformation := do
  let w := layoutOf p cm
  let (mainDataBegin, c) ← rd b ⟨base, 0⟩ 9
  let (privateBits, c) ← rd b c w.privateBits
  let (scfsi, c) ← rd b c w.scfsi
  let (g0, c) ← readGranule b w c
  let (g1, c) ← readGranule b w c
  .ok ⟨mainDataBegin, privateBits, scfsi, g0, g1, c.count⟩

/-- The fourteen response words of a granule, in the order of R172. -/
def granuleWords (g : Granule) : List Word :=
  [payloadWord g.part23Length, payloadWord g.bigValues, payloadWord g.globalGain, payloadWord g.scalefacCompress,
   payloadWord g.windowSwitchingFlag, payloadWord g.tableSelect, payloadWord g.region0Count, payloadWord g.region1Count,
   payloadWord g.preflag, payloadWord g.scalefacScale, payloadWord g.count1tableSelect, payloadWord g.blockType,
   payloadWord g.mixedBlockFlag, payloadWord g.subblockGain]

/-- The 32 payload words of SIDEINFO (R172). -/
def sideWords (si : SideInformation) : List Word :=
  [payloadWord si.mainDataBegin, payloadWord si.privateBits, payloadWord si.scfsi] ++ granuleWords si.granule0
    ++ granuleWords si.granule1 ++ [payloadWord si.bitsConsumed]

/-- SIDEINFO base, cm (R172). -/
def execSideinfo (base : Word) (cm : BitVec 2) (s : State) : Host.Outcome State Fault Refusal :=
  answer opcSideinfo (fun b => do
    let si ← sideInformation blockParams (blockBuffer b) base.toNat cm
    .ok (sideWords si)) s

end Sys2Proof.Machine
end

