-- ==== Sys2Proof/Machine/Dispatch.lean ====
section
/-! DEFINITION. Each command to its meaning (30_encoding.md R66). -/

namespace Sys2Proof.Machine

def exec (i : Instr) (s : State) : Host.Outcome State Fault Refusal :=
  match i with
  -- BitCursorExtractor
  | .extract off len => Sys2Proof.Machine.execExtract off len s
  | .cset pos => Sys2Proof.Machine.execCset pos s
  | .cread len => Sys2Proof.Machine.execCread len s
  -- Id3TagDecoder
  | .ssdec base => Sys2Proof.Machine.execSsdec base s
  | .id3hdr => Sys2Proof.Machine.execId3hdr s
  | .id3frm base => Sys2Proof.Machine.execId3frm base s
  | .id3walk tagsize => Sys2Proof.Machine.execId3walk tagsize s
  -- MpegFrameHeaderDecoder
  | .mpghdr base => Sys2Proof.Machine.execMpghdr base s
  | .mpgdrv hdr => Sys2Proof.Machine.execMpgdrv hdr s
  | .mpgcrc base => Sys2Proof.Machine.execMpgcrc base s
  -- SideInformationDecoder
  | .sideinfo base cm => Sys2Proof.Machine.execSideinfo base cm s

end Sys2Proof.Machine
end

