-- ==== Sys2Proof/Machine/Step.lean ====
section
/-! DEFINITION. One step of the machine: it takes the next host operation (70_reset_and_hazards.md R226) and performs it
whole (30_encoding.md R61). The block fetches nothing (10_state.md R26): a command runs because the host presents it. -/

namespace Sys2Proof.Machine

/-- One step. A legal command word runs as the command it spells, an illegal one raises `IllegalCommand` (R63, R192); SETBUF
and reset are the host's other moves (R30, R220). With nothing presented the block does nothing (R220): DEDUCED, log entry 11. -/
def step (s : State) : Host.Outcome State Fault Refusal :=
  match takeHostOp s with
  | none => .next s
  | some (.setbuf bytes, s') => setBuf bytes s'
  | some (.reset, s') => .next (resetBlock s')
  | some (.command w, s') =>
    match decode w with
    | .ok i => exec i s'
    | .error _ => .next (illegalCommand w s')

/-- `s` with the command word whose bits are `w` presented as the next host operation, so that the very next step takes and
runs it. Nothing else changes. -/
def State.withFetchWord (s : State) (nbits w : Nat) : State := presentCommand (tableWord nbits w) s

end Sys2Proof.Machine
end

