-- ==== Sys2Proof/Safety.lean ====
section
/-! DEFINITION. The terms in which claims about the machine are made: the invariant of its state, the value of a bit field in
closed form (40_bit_extract.md R91), the relational readings of an ID3 frame and of a walk (41_id3.md R117, R125), the
offset table of the side information (43_side_info.md R170), and what a command does as seen from outside. Nothing here is
used by a step. -/

namespace Sys2Proof.Machine

/-- The state's invariant. That `BUF_LEN` is at most `BUF_CAP` is the spec's: the table of R20 gives its range, `BUF` has
`BUF_CAP` entries (R21), and the host's two moves that write `BUF_LEN` keep it (SETBUF of at most `BUF_CAP` bytes, R30; reset to
0, R29). That memory keeps its canonical form and lists nothing at or beyond `BUF_LEN` is the model's choice: the spec leaves
those entries unspecified and no rule reads them (R29, R30, U3; DESIGN CHOICE, log entries 3 and 4). Any 32-bit `POS` is legal
(R23). -/
def StateInv (s : State) : Prop :=
  Memory.wf s.buf = true ∧ (∀ c ∈ s.buf, c.1 < s.bufLen.toNat) ∧ s.bufLen.toNat ≤ Config.bufCap

/-- The `len` buffer bits from absolute bit `a`, the first bit most significant: the sum of R91. -/
def fieldValue (b : Buffer) (a len : Nat) : Nat :=
  ∑ i ∈ Finset.range len, bufBit b 0 (a + i) * 2 ^ (len - 1 - i)

/-- A run of reads `rd(n1); …; rd(nk)` with a local cursor (R98). -/
def rdAll (b : Buffer) : Cursor → List Nat → Result (List Nat × Cursor)
  | c, [] => .ok ([], c)
  | c, n :: ns => do
    let (v, c) ← rd b c n
    let (vs, c) ← rdAll b c ns
    .ok (v :: vs, c)

/-- The values of adjacent fields of the given widths from absolute bit `a` on. -/
def fieldValues (b : Buffer) : Nat → List Nat → List Nat
  | _, [] => []
  | a, n :: ns => fieldValue b a n :: fieldValues b (a + n) ns

/-- The four bytes at `p` all have bit 7 clear (R115). -/
abbrev synchsafeOk (b : Buffer) (p : Nat) : Prop := ∀ i < 4, (byteAt b (p + i)).toNat < 128

/-- The concatenation of the low seven bits of the four bytes at `p`, most significant byte first (R115): a number in base
128. -/
def synchsafeValue (b : Buffer) (p : Nat) : Nat :=
  (((byteAt b p).toNat * 128 + (byteAt b (p + 1)).toNat) * 128 + (byteAt b (p + 2)).toNat) * 128
    + (byteAt b (p + 3)).toNat

/-- A byte sequence fits a row of R116: one byte per column, each in its range. -/
def fitsRow (row : List (Byte × Byte)) (s : List Byte) : Prop := List.Forall₂ (fun r v => r.1 ≤ v ∧ v ≤ r.2) row s

/-- `s` is a concatenation of zero or more of the byte patterns of R116 and nothing else. -/
def IsUtf8 (s : List Byte) : Prop :=
  ∃ chars : List (List Byte), s = chars.flatten ∧ ∀ c ∈ chars, ∃ row ∈ utf8Rows, fitsRow row c

/-- A Unicode scalar value: no surrogate and nothing above U+10FFFF (R116, GK1). -/
def isScalar (n : Nat) : Prop := n < 0xD800 ∨ (0xE000 ≤ n ∧ n ≤ 0x10FFFF)

/-- The shortest UTF-8 form of a scalar value, by arithmetic on the value and apart from the table of R116: no overlong forms.
PRESUMED (the spec's general knowledge, GK1). Log entry 10. -/
def utf8Encode (n : Nat) : List Byte :=
  let tail := fun shift => BitVec.ofNat 8 (0x80 + n / 2 ^ shift % 64)
  if n < 0x80 then [BitVec.ofNat 8 n]
  else if n < 0x800 then [BitVec.ofNat 8 (0xC0 + n / 2 ^ 6), tail 0]
  else if n < 0x10000 then [BitVec.ofNat 8 (0xE0 + n / 2 ^ 12), tail 6, tail 0]
  else [BitVec.ofNat 8 (0xF0 + n / 2 ^ 18), tail 12, tail 6, tail 0]

/-- A frame `f` stands at byte `p` (R117, R118): its header and content lie in the buffer, its size is synchsafe, and its
identifier and content are valid UTF-8. -/
abbrev FrameAt (b : Buffer) (p : Nat) (f : Id3Frame) : Prop :=
  p + 10 ≤ b.len ∧ utf8Valid (byteList b p 4) = true ∧ synchsafeOk b (p + 4) ∧ f.size = synchsafeValue b (p + 4) ∧
  p + 10 + f.size ≤ b.len ∧ utf8Valid (byteList b (p + 10) f.size) = true ∧ f.id = bigEndian b p 4 ∧ f.cstart = p + 10

/-- The walk loop of R125 goes from one offset to another over the listed frames, each starting before `stop`. -/
inductive Walks (b : Buffer) (stop : Nat) : Nat → List Id3Frame → Nat → Prop
  | here (off : Nat) : Walks b stop off [] off
  | turn (off : Nat) (f : Id3Frame) (fs : List Id3Frame) (next : Nat) :
      off < stop → FrameAt b off f → Walks b stop (off + 10 + f.size) fs next → Walks b stop off (f :: fs) next

/-- The field `w[hi:lo]` of a word, as R8 defines it, by its low bit and its width. -/
def bitsOf (w : Word) (lo width : Nat) : Nat := (w.toNat >>> lo) % 2 ^ width

/-- Offset and width of the 25 decoded fields in the single-channel layout, as R170's table gives them. -/
def sideTableSC : List (Nat × Nat) :=
  [(0, 9), (9, 3), (12, 4),
   (16, 12), (28, 9), (37, 8), (45, 4), (49, 1), (50, 20), (70, 4), (74, 3), (77, 1), (78, 1), (79, 1),
   (80, 12), (92, 9), (101, 8), (109, 4), (113, 1), (114, 20), (134, 4), (138, 3), (141, 1), (142, 1), (143, 1)]

/-- Offset and width of the 25 decoded fields in the multi-channel layout, as R170's table gives them. -/
def sideTableMC : List (Nat × Nat) :=
  [(0, 9), (9, 5), (14, 8),
   (22, 24), (46, 18), (64, 16), (80, 8), (88, 2), (90, 30), (120, 8), (128, 6), (134, 2), (136, 2), (138, 2),
   (140, 24), (164, 18), (182, 16), (198, 8), (206, 2), (208, 30), (238, 8), (246, 6), (252, 2), (254, 2), (256, 2)]

/-- The 32 payload words of R172 for a table of offsets: three fields, eleven fields and three zeros per granule, and the
bits consumed. -/
def sidePayload (b : Buffer) (base : Nat) (table : List (Nat × Nat)) (total : Nat) : List Word :=
  let field := fun (r : Nat × Nat) => payloadWord (fieldValue b (8 * base + r.1) r.2)
  (table.take 14).map field ++ [0, 0, 0] ++ (table.drop 14).map field ++ [0, 0, 0] ++ [payloadWord total]

/-- The mnemonic of a command (R66). -/
def mnemonicOf : Instr → String
  | .extract _ _ => "EXTRACT"
  | .cset _ => "CSET"
  | .cread _ => "CREAD"
  | .ssdec _ => "SSDEC"
  | .id3hdr => "ID3HDR"
  | .id3frm _ => "ID3FRM"
  | .id3walk _ => "ID3WALK"
  | .mpghdr _ => "MPGHDR"
  | .mpgdrv _ => "MPGDRV"
  | .mpgcrc _ => "MPGCRC"
  | .sideinfo _ _ => "SIDEINFO"

/-- The error kinds R191 lists for a command. -/
def kindsOf : Instr → List ErrorKind
  | .extract _ _ => [.unsupportedFieldWidth, .outOfRange]
  | .cset _ => []
  | .cread _ => [.unsupportedFieldWidth, .outOfRange]
  | .ssdec _ => [.outOfRange, .invalidSynchsafeSize]
  | .id3hdr => [.outOfRange, .unsupportedVersion, .invalidHeaderFlags, .invalidSynchsafeSize]
  | .id3frm _ => [.outOfRange, .invalidEncoding, .invalidSynchsafeSize]
  | .id3walk _ => [.outOfRange, .invalidEncoding, .invalidSynchsafeSize]
  | .mpghdr _ => [.outOfRange, .badFrameSync]
  | .mpgdrv _ => [.reservedField, .invalidBitrateIndex, .invalidSampleRateIndex]
  | .mpgcrc _ => [.outOfRange, .badFrameSync, .reservedField, .invalidBitrateIndex, .invalidSampleRateIndex,
      .checksumMismatch]
  | .sideinfo _ _ => [.outOfRange]

/-- A payload of `n` words is of the size R71 lists for a command that succeeds. -/
def payloadFits : Instr → Nat → Prop
  | .extract _ _, n => n = 1
  | .cset _, n => n = 1
  | .cread _, n => n = 2
  | .ssdec _, n => n = 1
  | .id3hdr, n => n = 2
  | .id3frm _, n => n = 3
  | .id3walk _, n => ∃ k, n = 2 + 3 * k
  | .mpghdr _, n => n = 1
  | .mpgdrv _, n => n = 3
  | .mpgcrc _, n => n = 1
  | .sideinfo _ _, n => n = 32

/-- What is seen of one command from outside: the block after it (R20) and the responses it gave; `none` where the machine
stopped. -/
def effect (i : Instr) (s : State) : Option (Block × List Response) :=
  match exec i s with
  | .next t => some (t.toBlock, t.responses.drop s.responses.length)
  | .fault _ => none
  | .refused _ => none

/-- The responses a command gives. -/
def answersOf (i : Instr) (s : State) : Option (List Response) := (effect i s).map (·.2)

end Sys2Proof.Machine
end

