-- ==== Sys2Proof/Certificates/Slice0/Obligations.lean ====
section
/-! DEFINITION. The statements about the machine, from the numbered rules of spec/. Where a command's whole next state is
given, its frame is part of the statement: `respond r s` differs from `s` in the response list alone. -/

open Sys2Proof Sys2Proof.Machine

/-! ### Command words (30_encoding.md) -/

/-- Decoding the word that spells a command gives that command back, every operand at every value (R62, R66). -/
def Obligations.DecodeInvertsEncode : Prop := ∀ i : Instr, decode (encode i) = .ok i

/-- A legal word is the only spelling of its command: encoding what was decoded gives the word back (R62, R63). -/
def Obligations.EncodeInvertsDecode : Prop := ∀ (w : CmdWord) (i : Instr), decode w = .ok i → encode i = w

/-- R66: a word decodes to a command of a row's mnemonic exactly when `w & mask = match` for that row. -/
def Obligations.DecodeFollowsMatchAndMask : Prop :=
  ∀ (w : CmdWord), ∀ row ∈ opcodeTable,
    (row.spells w = true ↔ ∃ i, decode w = .ok i ∧ mnemonicOf i = row.mnemonic)

/-- R63: every word spells exactly one command or is illegal; no two rows of R66 share a word. -/
def Obligations.WordSpellsOneCommandOrNone : Prop :=
  ∀ w : CmdWord, (∃ i row, decode w = .ok i ∧ rowsOf w = [row] ∧ row.mnemonic = mnemonicOf i) ∨
    (∃ why, decode w = .error why ∧ rowsOf w = [])

/-- The worked encodings of R69 decode to the commands they are printed beside. -/
def Obligations.WorkedEncodingsDecode : Prop :=
  decode 0x010300000000000D = .ok (.extract 13 3) ∧ decode 0x030B000000000000 = .ok (.cread 11) ∧
  decode 0x1300000000000023 = .ok (.id3walk 35) ∧ decode 0x21000000FFFB9064 = .ok (.mpgdrv 0xFFFB9064) ∧
  decode 0x3000030000000004 = .ok (.sideinfo 4 0b11)

/-! ### The step and the host interface (30_encoding.md, 70_reset_and_hazards.md) -/

/-- A step runs the decoded command: when the next host operation is a word that decodes to `i`, the step is `exec i` on the
state with that operation taken. -/
def Obligations.StepRunsDecodedCommand : Prop :=
  ∀ (s : State) (w : CmdWord) (rest : List HostOp) (i : Instr),
    s.pending = .command w :: rest → decode w = .ok i → step s = exec i { s with pending := rest }

/-- A step acts on the block alone (R20, R61, R70): what it does to the block, what it answers and whether it stops depend on
the block and the host operation it takes, and on nothing else the host has presented or been answered before. -/
def Obligations.StepActsOnTheBlockAlone : Prop :=
  ∀ (s s' : State) (op : HostOp) (rest rest' : List HostOp),
    s.pending = op :: rest → s'.pending = op :: rest' → s'.toBlock = s.toBlock →
    (∀ t, step s = .next t → ∃ t' rs, step s' = .next t' ∧ t'.toBlock = t.toBlock ∧ t.pending = rest ∧
      t'.pending = rest' ∧ t.responses = s.responses ++ rs ∧ t'.responses = s'.responses ++ rs) ∧
    (∀ why, step s = .refused why → step s' = .refused why)

/-- R192: an illegal word gives `IllegalCommand` (ERR = 12) with the word's top byte as OPE and changes nothing else. -/
def Obligations.IllegalWordOnlyAnswers : Prop :=
  ∀ (s : State) (w : CmdWord) (rest : List HostOp), s.pending = .command w :: rest → wellFormedWord w = false →
    step s = .next { s with
      pending := rest
      responses := s.responses ++ [⟨BitVec.ofNat 32 (w.toNat / 2 ^ 56 * 256 + 12), []⟩] }

/-- R70, R72: every command word, legal or not, gets exactly one response; its status has bits 31:16 zero, OPE = the word's
bits 63:56 and ERR at most 12, and a response with ERR ≠ 0 has no payload. -/
def Obligations.EveryWordGetsOneResponse : Prop :=
  ∀ (s : State) (w : CmdWord) (rest : List HostOp), s.pending = .command w :: rest →
    ∃ t r, step s = .next t ∧ t.pending = rest ∧ t.responses = s.responses ++ [r] ∧
      bitsOf r.status 16 16 = 0 ∧ bitsOf r.status 8 8 = w.toNat / 2 ^ 56 ∧ bitsOf r.status 0 8 ≤ 12 ∧
      (bitsOf r.status 0 8 ≠ 0 → r.payload = [])

/-- R71: on success the number of payload words is the one its table lists for the command. -/
def Obligations.PayloadHasTheListedLength : Prop :=
  ∀ (i : Instr) (s t : State) (r : Response), exec i s = .next t → t.responses = s.responses ++ [r] →
    bitsOf r.status 0 8 = 0 → payloadFits i r.payload.length

/-- The block moves exactly when the host has presented something (R220; the idle step is the model's, log entry 11). -/
def Obligations.StepIsIdleOnlyWithNothingPresented : Prop := ∀ s : State, step s = .next s ↔ s.pending = []

/-- R30: SETBUF of at most BUF_CAP bytes sets every byte of the sequence, the length, and POS to 0, and answers nothing. -/
def Obligations.SetbufLoadsTheBytes : Prop :=
  ∀ (s : State) (bytes : List Byte) (rest : List HostOp), s.pending = .setbuf bytes :: rest →
    bytes.length ≤ Config.bufCap →
    ∃ t, step s = .next t ∧ t.bufLen.toNat = bytes.length ∧
      (∀ (k : Nat) (h : k < bytes.length), byteAt (bufferOf t) k = bytes[k]) ∧
      t.pos = 0 ∧ t.pending = rest ∧ t.responses = s.responses

/-- SETBUF of more than BUF_CAP bytes is no move of the host's (R30); the model refuses it by name (log entry 5). -/
def Obligations.SetbufBeyondCapacityIsRefused : Prop :=
  ∀ (s : State) (bytes : List Byte) (rest : List HostOp), s.pending = .setbuf bytes :: rest →
    Config.bufCap < bytes.length → step s = .refused .bufferTooLong

/-- R29, R220: the reset event leaves POS = 0 and BUF_LEN = 0, and no bit field can then be read. -/
def Obligations.ResetEventEmptiesTheBlock : Prop :=
  ∀ (s : State) (rest : List HostOp), s.pending = .reset :: rest →
    ∃ t, step s = .next t ∧ t.pos = 0 ∧ t.bufLen = 0 ∧ t.pending = rest ∧ t.responses = s.responses ∧
      ∀ (off : Word) (len : Byte), 1 ≤ len.toNat → len.toNat ≤ 32 →
        exec (.extract off len) t = .next (respond ⟨0x0105, []⟩ t)

/-- R221, R22: on the empty buffer every buffer-reading command raises OutOfRange (EXTRACT and CREAD for a legal LEN; every
other LEN is UnsupportedFieldWidth, R92), `ID3WALK 0` succeeds with no frames, and CSET and MPGDRV work. -/
def Obligations.EmptyBufferBehaviour : Prop :=
  ∀ s : State, s.bufLen = 0 →
    (∀ (off : Word) (len : Byte), 1 ≤ len.toNat → len.toNat ≤ 32 →
      exec (.extract off len) s = .next (respond ⟨0x0105, []⟩ s)) ∧
    (∀ (off : Word) (len : Byte), len.toNat = 0 ∨ 32 < len.toNat →
      exec (.extract off len) s = .next (respond ⟨0x010B, []⟩ s)) ∧
    (∀ len : Byte, 1 ≤ len.toNat → len.toNat ≤ 32 → exec (.cread len) s = .next (respond ⟨0x0305, []⟩ s)) ∧
    (∀ len : Byte, len.toNat = 0 ∨ 32 < len.toNat → exec (.cread len) s = .next (respond ⟨0x030B, []⟩ s)) ∧
    (∀ base : Word, exec (.ssdec base) s = .next (respond ⟨0x1005, []⟩ s)) ∧
    exec .id3hdr s = .next (respond ⟨0x1105, []⟩ s) ∧
    (∀ base : Word, exec (.id3frm base) s = .next (respond ⟨0x1205, []⟩ s)) ∧
    exec (.id3walk 0) s = .next (respond ⟨0x1300, [0, 10]⟩ s) ∧
    (∀ tagsize : BitVec 28, tagsize ≠ 0 → exec (.id3walk tagsize) s = .next (respond ⟨0x1305, []⟩ s)) ∧
    (∀ base : Word, exec (.mpghdr base) s = .next (respond ⟨0x2005, []⟩ s)) ∧
    (∀ (h : Word) (d : DerivedFrameValues), drv blockParams h = .ok d → exec (.mpgdrv h) s = .next (respond
      ⟨0x2100, [payloadWord d.bitrate, payloadWord d.sampleRate, payloadWord d.frameLengthBytes]⟩ s)) ∧
    (∀ (h : Word) (e : ErrorKind), drv blockParams h = .error e →
      exec (.mpgdrv h) s = .next (respond (errorResponse 0x21 e) s)) ∧
    (∀ base : Word, exec (.mpgcrc base) s = .next (respond ⟨0x2205, []⟩ s)) ∧
    (∀ (base : Word) (cm : BitVec 2), exec (.sideinfo base cm) s = .next (respond ⟨0x3005, []⟩ s)) ∧
    (∀ pos : Word, exec (.cset pos) s = .next (respond ⟨0x0200, [pos]⟩ { s with pos := pos }))

/-! ### The whole machine (10_state.md, 20_memory.md, 60_exceptions.md) -/

/-- Every step keeps the invariant. BUF_LEN at most BUF_CAP is the range in R20's table: SETBUF takes at most BUF_CAP bytes
(R30), reset leaves 0 (R29, R220), and no command writes memory or the length (R21, R41). Canonical memory, and nothing listed
at or beyond BUF_LEN, are the model's choice (log entries 3 and 4): R29 and R30 leave those entries unspecified, and U3 says
"no rule reads them (rule R44), so nothing observable depends on them". -/
def Obligations.StepKeepsTheInvariant : Prop := ∀ s t : State, StateInv s → step s = .next t → StateInv t

/-- The invariant holds after reset. BUF_LEN at most BUF_CAP is the range in R20's table, and BUF_LEN is 0 (R29). That nothing
is listed in BUF is the model's choice (DESIGN CHOICE, log entry 3): R29 calls the contents unspecified, and U3 says "no rule
reads them (rule R44), so nothing observable depends on them". -/
def Obligations.InvariantHoldsAtReset : Prop := StateInv State.reset

/-- R41: no command writes memory; every byte, BUF and BUF_LEN are as before, and so is what the host has presented. -/
def Obligations.NoCommandWritesMemory : Prop :=
  ∀ (i : Instr) (s t : State), exec i s = .next t →
    t.buf = s.buf ∧ t.bufLen = s.bufLen ∧ t.pending = s.pending ∧
      ∀ a, byteAt (bufferOf t) a = byteAt (bufferOf s) a

/-- POS is written by CSET and CREAD alone (R20, R28): every other command leaves it, and adds one response and nothing else. -/
def Obligations.OnlyCursorCommandsWritePos : Prop :=
  ∀ (i : Instr) (s : State), (∀ pos, i ≠ .cset pos) → (∀ len, i ≠ .cread len) →
    ∃ r, exec i s = .next (respond r s)

/-- R195: a command that raises changes no state, answers without payload, and every command after it has the effect it
would have had without it. -/
def Obligations.FailedCommandLeavesNoTrace : Prop :=
  ∀ (i : Instr) (s t : State) (r : Response), exec i s = .next t → t.responses = s.responses ++ [r] →
    bitsOf r.status 0 8 ≠ 0 → t = respond r s ∧ r.payload = [] ∧ ∀ j, effect j t = effect j s

/-- A command raises only the kinds R191 lists for it (R193). -/
def Obligations.CommandsRaiseOnlyTheirKinds : Prop :=
  ∀ (i : Instr) (s t : State), exec i s = .next t →
    (∃ ws, t.responses = s.responses ++ [okResponse (opcode i) ws]) ∨
    (∃ e ∈ kindsOf i, t.responses = s.responses ++ [errorResponse (opcode i) e])

/-- But for CREAD a command's answer depends on BUF_LEN and the bytes below it alone (R21, R44: no rule reads an entry at or
beyond BUF_LEN), so repeating it on the same buffer gives the same response whatever ran in between (R27, R233); CREAD's
depends on POS as well. Log entries 3 and 4 rest their safety on this. -/
def Obligations.AnswersDependOnBufferAlone : Prop :=
  ∀ (i : Instr) (s s' : State), s'.bufLen = s.bufLen →
    (∀ k < s.bufLen.toNat, byteAt (bufferOf s') k = byteAt (bufferOf s) k) →
    ((∀ len, i ≠ .cread len) ∨ s'.pos = s.pos) → answersOf i s' = answersOf i s

/-- CSET and MPGDRV read nothing of the state (R40, R147): their answers are the same in any two states. -/
def Obligations.CsetAndMpgdrvReadNoState : Prop :=
  ∀ (v : Word) (s s' : State), answersOf (.cset v) s' = answersOf (.cset v) s ∧
    answersOf (.mpgdrv v) s' = answersOf (.mpgdrv v) s

/-! ### Bit-field extraction and the cursor (40_bit_extract.md) -/

/-- R90 to R92 in closed form: `XB` gives the sum of the field's bits, fails by width outside 1 to 32 first, and by range
exactly when the field passes the last bit of the buffer. -/
def Obligations.ExtractionClosedForm : Prop :=
  ∀ (b : Buffer) (base off len : Nat),
    (1 ≤ len → len ≤ 32 → 8 * base + off + len ≤ 8 * b.len →
      xb b base off len = .ok (fieldValue b (8 * base + off) len)) ∧
    (1 ≤ len → len ≤ 32 → 8 * b.len < 8 * base + off + len → xb b base off len = .error .outOfRange) ∧
    (len = 0 ∨ 32 < len → xb b base off len = .error .unsupportedFieldWidth)

/-- R51: a field read as one piece is the concatenation of its parts read separately. -/
def Obligations.MixedWidthReadsAgree : Prop :=
  ∀ (b : Buffer) (base off m n : Nat), 1 ≤ m → 1 ≤ n → m + n ≤ 32 → 8 * base + off + (m + n) ≤ 8 * b.len →
    ∃ u v, xb b base off m = .ok u ∧ xb b base (off + m) n = .ok v ∧
      xb b base off (m + n) = .ok (u * 2 ^ n + v)

/-- R97: on a buffer of all ones a field of `len` bits is 2^len - 1. -/
def Obligations.AllOnesBufferGivesAllOnes : Prop :=
  ∀ (b : Buffer) (off len : Nat), (∀ k < b.len, byteAt b k = 0xFF) → 1 ≤ len → len ≤ 32 →
    off + len ≤ 8 * b.len → xb b 0 off len = .ok (2 ^ len - 1)

/-- R93: a field of 1 to 32 bits spans 1 to 5 bytes, and 5 exactly when (a mod 8) + len exceeds 32. -/
def Obligations.FieldSpansOneToFiveBytes : Prop :=
  ∀ a len : Nat, 1 ≤ len → len ≤ 32 →
    1 ≤ endByte a len - startByte a ∧ endByte a len - startByte a ≤ 5 ∧
      (endByte a len - startByte a = 5 ↔ 32 < a % 8 + len)

/-- R98: a run of reads with a local cursor gives the adjacent fields and leaves the cursor past them; it raises OutOfRange
exactly when the last field passes the end of the buffer. -/
def Obligations.CursorReadsAdjacentFields : Prop :=
  ∀ (b : Buffer) (base c : Nat) (widths : List Nat), widths ≠ [] → (∀ n ∈ widths, 1 ≤ n ∧ n ≤ 32) →
    (8 * base + c + widths.sum ≤ 8 * b.len →
      rdAll b ⟨base, c⟩ widths = .ok (fieldValues b (8 * base + c) widths, ⟨base, c + widths.sum⟩)) ∧
    (8 * b.len < 8 * base + c + widths.sum → rdAll b ⟨base, c⟩ widths = .error .outOfRange)

/-- R94: EXTRACT. -/
def Obligations.ExtractOutcome : Prop :=
  ∀ (s : State) (off : Word) (len : Byte),
    (1 ≤ len.toNat → len.toNat ≤ 32 → off.toNat + len.toNat ≤ 8 * s.bufLen.toNat →
      exec (.extract off len) s =
        .next (respond ⟨0x0100, [payloadWord (fieldValue (bufferOf s) off.toNat len.toNat)]⟩ s)) ∧
    (len.toNat = 0 ∨ 32 < len.toNat → exec (.extract off len) s = .next (respond ⟨0x010B, []⟩ s)) ∧
    (1 ≤ len.toNat → len.toNat ≤ 32 → 8 * s.bufLen.toNat < off.toNat + len.toNat →
      exec (.extract off len) s = .next (respond ⟨0x0105, []⟩ s))

/-- R95: CSET. It always stores the position as it is, and a position past the buffer fails at the next CREAD. -/
def Obligations.CsetOutcome : Prop :=
  ∀ (s : State) (pos : Word),
    exec (.cset pos) s = .next { s with pos := pos, responses := s.responses ++ [⟨0x0200, [pos]⟩] } ∧
    ∀ (t : State) (len : Byte), exec (.cset pos) s = .next t → 1 ≤ len.toNat → len.toNat ≤ 32 →
      8 * s.bufLen.toNat < pos.toNat + len.toNat → exec (.cread len) t = .next (respond ⟨0x0305, []⟩ t)

/-- R96: CREAD. -/
def Obligations.CreadOutcome : Prop :=
  ∀ (s : State) (len : Byte),
    (1 ≤ len.toNat → len.toNat ≤ 32 → s.pos.toNat + len.toNat ≤ 8 * s.bufLen.toNat →
      exec (.cread len) s = .next { s with
        pos := payloadWord (s.pos.toNat + len.toNat)
        responses := s.responses ++ [⟨0x0300, [payloadWord (fieldValue (bufferOf s) s.pos.toNat len.toNat),
          payloadWord (s.pos.toNat + len.toNat)]⟩] }) ∧
    (len.toNat = 0 ∨ 32 < len.toNat → exec (.cread len) s = .next (respond ⟨0x030B, []⟩ s)) ∧
    (1 ≤ len.toNat → len.toNat ≤ 32 → 8 * s.bufLen.toNat < s.pos.toNat + len.toNat →
      exec (.cread len) s = .next (respond ⟨0x0305, []⟩ s))

/-- A run of CREADs returns the values EXTRACT returns at the same offsets (R96). -/
def Obligations.CreadReturnsWhatExtractReturns : Prop :=
  ∀ (s : State) (len : Byte) (v : Word), exec (.extract s.pos len) s = .next (respond ⟨0x0100, [v]⟩ s) →
    exec (.cread len) s = .next (respond ⟨0x0300, [v, s.pos + len.setWidth 32]⟩
      { s with pos := s.pos + len.setWidth 32 })

/-- R24: in a state that meets the invariant a CREAD that moves POS advances it by LEN exactly and not past the buffer. -/
def Obligations.PosNeverWraps : Prop :=
  ∀ (s t : State) (len : Byte), StateInv s → exec (.cread len) s = .next t → t.pos ≠ s.pos →
    t.pos.toNat = s.pos.toNat + len.toNat ∧ t.pos.toNat ≤ 8 * s.bufLen.toNat

/-! ### ID3 tags (41_id3.md) -/

/-- R115: the synchsafe decode, and its round trip for every number below 2^28. -/
def Obligations.SynchsafeDecode : Prop :=
  ∀ (b : Buffer) (p : Nat),
    (b.len < p + 4 → ss b p = .error .outOfRange) ∧
    (p + 4 ≤ b.len → ¬synchsafeOk b p → ss b p = .error .invalidSynchsafeSize) ∧
    (p + 4 ≤ b.len → synchsafeOk b p → ss b p = .ok (synchsafeValue b p)) ∧
    (∀ n < 2 ^ 28, p + 4 ≤ b.len → (∀ k < 4, (byteAt b (p + k)).toNat = (n >>> (7 * (3 - k))) % 128) →
      ss b p = .ok n)

/-- R111: SSDEC. -/
def Obligations.SsdecOutcome : Prop :=
  ∀ (s : State) (base : Word),
    (s.bufLen.toNat < base.toNat + 4 → exec (.ssdec base) s = .next (respond ⟨0x1005, []⟩ s)) ∧
    (base.toNat + 4 ≤ s.bufLen.toNat → ¬synchsafeOk (bufferOf s) base.toNat →
      exec (.ssdec base) s = .next (respond ⟨0x1003, []⟩ s)) ∧
    (base.toNat + 4 ≤ s.bufLen.toNat → synchsafeOk (bufferOf s) base.toNat →
      exec (.ssdec base) s =
        .next (respond ⟨0x1000, [payloadWord (synchsafeValue (bufferOf s) base.toNat)]⟩ s))

/-- R112: ID3HDR, its four failures in order and its answer. -/
def Obligations.Id3hdrOutcome : Prop :=
  ∀ s : State,
    (s.bufLen.toNat < 10 → exec .id3hdr s = .next (respond ⟨0x1105, []⟩ s)) ∧
    (10 ≤ s.bufLen.toNat → (byteAt (bufferOf s) 3).toNat ≠ 3 → exec .id3hdr s = .next (respond ⟨0x1102, []⟩ s)) ∧
    (10 ≤ s.bufLen.toNat → (byteAt (bufferOf s) 3).toNat = 3 → (byteAt (bufferOf s) 5).toNat % 32 ≠ 0 →
      exec .id3hdr s = .next (respond ⟨0x1101, []⟩ s)) ∧
    (10 ≤ s.bufLen.toNat → (byteAt (bufferOf s) 3).toNat = 3 → (byteAt (bufferOf s) 5).toNat % 32 = 0 →
      ¬synchsafeOk (bufferOf s) 6 → exec .id3hdr s = .next (respond ⟨0x1103, []⟩ s)) ∧
    (10 ≤ s.bufLen.toNat → (byteAt (bufferOf s) 3).toNat = 3 → (byteAt (bufferOf s) 5).toNat % 32 = 0 →
      synchsafeOk (bufferOf s) 6 →
      exec .id3hdr s = .next (respond ⟨0x1100, [payloadWord (synchsafeValue (bufferOf s) 6),
        payloadWord ((byteAt (bufferOf s) 5).toNat &&& 0xE0)]⟩ s))

/-- R116: `utf8_valid` holds of exactly the concatenations of the table's byte patterns. The table is the spec's general
knowledge (GK1, log entry 10). -/
def Obligations.Utf8ValidIffConcatenation : Prop := ∀ s : List Byte, utf8Valid s = true ↔ IsUtf8 s

/-- R116 apart from its table: the valid sequences are exactly the concatenations of the shortest UTF-8 forms of Unicode scalar
values, which is the standard definition the rule names (GK1, log entry 10). -/
def Obligations.Utf8ValidIffEncodesScalars : Prop :=
  ∀ s : List Byte, utf8Valid s = true ↔ ∃ cs : List Nat, (∀ n ∈ cs, isScalar n) ∧ s = cs.flatMap utf8Encode

/-- The consequences R116 draws, apart from its table: no byte C0, C1 or F5 to FF; after a lead byte C2 or above a continuation
byte follows, so nothing is cut short there; A0 at least after E0 and 90 at least after F0 (no overlong form), 9F at most after
ED (no surrogate), 8F at most after F4 (nothing above U+10FFFF); and zero bytes, none of them included, are valid. -/
def Obligations.Utf8RefusesWhatTheRuleNames : Prop :=
  (∀ s : List Byte, utf8Valid s = true →
    (∀ v ∈ s, v ≠ 0xC0 ∧ v ≠ 0xC1 ∧ v.toNat < 0xF5) ∧
    (∀ (k : Nat) (v : Byte), s[k]? = some v → 0xC2 ≤ v.toNat →
      ∃ next, s[k + 1]? = some next ∧ 0x80 ≤ next.toNat ∧ next.toNat ≤ 0xBF ∧
        (v = 0xE0 → 0xA0 ≤ next.toNat) ∧ (v = 0xED → next.toNat ≤ 0x9F) ∧
        (v = 0xF0 → 0x90 ≤ next.toNat) ∧ (v = 0xF4 → next.toNat ≤ 0x8F))) ∧
  (∀ n : Nat, utf8Valid (List.replicate n 0) = true)

/-- R117: ID3FRM, its failures in order and its answer. -/
def Obligations.Id3frmOutcome : Prop :=
  ∀ (s : State) (base : Word),
    (s.bufLen.toNat < base.toNat + 10 → exec (.id3frm base) s = .next (respond ⟨0x1205, []⟩ s)) ∧
    (base.toNat + 10 ≤ s.bufLen.toNat → utf8Valid (byteList (bufferOf s) base.toNat 4) = false →
      exec (.id3frm base) s = .next (respond ⟨0x1204, []⟩ s)) ∧
    (base.toNat + 10 ≤ s.bufLen.toNat → utf8Valid (byteList (bufferOf s) base.toNat 4) = true →
      ¬synchsafeOk (bufferOf s) (base.toNat + 4) → exec (.id3frm base) s = .next (respond ⟨0x1203, []⟩ s)) ∧
    (base.toNat + 10 ≤ s.bufLen.toNat → utf8Valid (byteList (bufferOf s) base.toNat 4) = true →
      synchsafeOk (bufferOf s) (base.toNat + 4) →
      s.bufLen.toNat < base.toNat + 10 + synchsafeValue (bufferOf s) (base.toNat + 4) →
      exec (.id3frm base) s = .next (respond ⟨0x1205, []⟩ s)) ∧
    (base.toNat + 10 ≤ s.bufLen.toNat → utf8Valid (byteList (bufferOf s) base.toNat 4) = true →
      synchsafeOk (bufferOf s) (base.toNat + 4) →
      base.toNat + 10 + synchsafeValue (bufferOf s) (base.toNat + 4) ≤ s.bufLen.toNat →
      utf8Valid (byteList (bufferOf s) (base.toNat + 10) (synchsafeValue (bufferOf s) (base.toNat + 4))) = false →
      exec (.id3frm base) s = .next (respond ⟨0x1204, []⟩ s)) ∧
    (∀ f, FrameAt (bufferOf s) base.toNat f →
      exec (.id3frm base) s =
        .next (respond ⟨0x1200, [payloadWord (bigEndian (bufferOf s) base.toNat 4), payloadWord f.size,
          payloadWord (base.toNat + 10)]⟩ s))

/-- R125: ID3WALK. When the loop reaches its stop it answers the number of frames, their words and the offset reached; when
it reaches a frame that has an error it answers that error alone. -/
def Obligations.Id3walkOutcome : Prop :=
  ∀ (s : State) (tagsize : BitVec 28) (fs : List Id3Frame) (next : Nat),
    Walks (bufferOf s) (tagsize.toNat + 10) 10 fs next →
    (tagsize.toNat + 10 ≤ next →
      exec (.id3walk tagsize) s = .next (respond ⟨0x1300, payloadWord fs.length ::
        fs.flatMap (fun f => [payloadWord f.id, payloadWord f.size, payloadWord f.cstart]) ++ [payloadWord next]⟩ s)) ∧
    (∀ e, next < tagsize.toNat + 10 → frm (bufferOf s) next = .error e →
      exec (.id3walk tagsize) s = .next (respond (errorResponse 0x13 e) s))

/-- R126: a walk that succeeds stops at or past the end of the tag, at the sum of its frames, after at most
ceil(TAGSIZE / 10) frames, and inside the buffer when there is a frame; `ID3WALK 0` reads nothing and finds none. -/
def Obligations.WalkIsBounded : Prop :=
  ∀ (b : Buffer) (tagsize : Nat),
    (∀ fs next, id3Walk b tagsize = .ok (fs, next) →
      tagsize + 10 ≤ next ∧ next = 10 + (fs.map fun f => 10 + f.size).sum ∧ fs.length ≤ (tagsize + 9) / 10 ∧
        (fs ≠ [] → next ≤ b.len)) ∧
    id3Walk b 0 = .ok ([], 10)

/-- R126: ten zero bytes inside the buffer walk as an empty frame. -/
def Obligations.ZeroPaddingIsAnEmptyFrame : Prop :=
  ∀ (b : Buffer) (p : Nat), p + 10 ≤ b.len → (∀ k < 10, byteAt b (p + k) = 0) → frm b p = .ok ⟨0, 0, p + 10⟩

/-! ### MPEG frame headers (42_mpeg_header.md) -/

/-- R142: MPGHDR, with the header image as the four bytes read big-endian (R140). -/
def Obligations.MpghdrOutcome : Prop :=
  ∀ (s : State) (base : Word),
    (s.bufLen.toNat < base.toNat + 4 → exec (.mpghdr base) s = .next (respond ⟨0x2005, []⟩ s)) ∧
    (base.toNat + 4 ≤ s.bufLen.toNat → bigEndian (bufferOf s) base.toNat 4 / 2 ^ 21 ≠ 0x7FF →
      exec (.mpghdr base) s = .next (respond ⟨0x2006, []⟩ s)) ∧
    (base.toNat + 4 ≤ s.bufLen.toNat → bigEndian (bufferOf s) base.toNat 4 / 2 ^ 21 = 0x7FF →
      exec (.mpghdr base) s =
        .next (respond ⟨0x2000, [payloadWord (bigEndian (bufferOf s) base.toNat 4)]⟩ s))

/-- R140: the image a header decode gives is the four bytes big-endian, and each field lies at the buffer bits and at the
bits of the image that the table gives. -/
def Obligations.HeaderImageLayout : Prop :=
  ∀ (b : Buffer) (base : Nat) (h : Word), hdrdec b base = .ok h →
    h.toNat = bigEndian b base 4 ∧
    bitsOf h 21 11 = fieldValue b (8 * base) 11 ∧ bitsOf h 21 11 = 0x7FF ∧
    bitsOf h 19 2 = fieldValue b (8 * base + 11) 2 ∧ bitsOf h 17 2 = fieldValue b (8 * base + 13) 2 ∧
    bitsOf h 16 1 = fieldValue b (8 * base + 15) 1 ∧ bitsOf h 12 4 = fieldValue b (8 * base + 16) 4 ∧
    bitsOf h 10 2 = fieldValue b (8 * base + 20) 2 ∧ bitsOf h 9 1 = fieldValue b (8 * base + 22) 1 ∧
    bitsOf h 8 1 = fieldValue b (8 * base + 23) 1 ∧ bitsOf h 6 2 = fieldValue b (8 * base + 24) 2 ∧
    bitsOf h 4 2 = fieldValue b (8 * base + 26) 2 ∧ bitsOf h 3 1 = fieldValue b (8 * base + 28) 1 ∧
    bitsOf h 2 1 = fieldValue b (8 * base + 29) 1 ∧ bitsOf h 0 2 = fieldValue b (8 * base + 30) 2

/-- R147: MPGDRV, in terms of the block's codings and bitrate tables, whatever they hold: its failures in order, its answer,
and that HDR[31:21] is ignored. -/
def Obligations.MpgdrvOutcome : Prop :=
  ∀ (s : State) (h : Word),
    let v := blockParams.versionOf (BitVec.ofNat 2 (bitsOf h 19 2))
    let l := blockParams.layerOf (BitVec.ofNat 2 (bitsOf h 17 2))
    let bi := bitsOf h 12 4
    let si := bitsOf h 10 2
    let pad := bitsOf h 9 1
    (v = .reserved ∨ l = .reserved → exec (.mpgdrv h) s = .next (respond ⟨0x2107, []⟩ s)) ∧
    (v ≠ .reserved → l ≠ .reserved → bi = 0 ∨ bi = 15 → exec (.mpgdrv h) s = .next (respond ⟨0x2108, []⟩ s)) ∧
    (v ≠ .reserved → l ≠ .reserved → bi ≠ 0 → bi ≠ 15 → si = 3 →
      exec (.mpgdrv h) s = .next (respond ⟨0x2109, []⟩ s)) ∧
    (∀ t, bitrateTable v l = some t → bi ≠ 0 → bi ≠ 15 → si ≠ 3 →
      let bitrate := (blockParams.bitrateKbps t).getD bi 0 * 1000
      let rate := (sampleRateHz v).getD si 0
      let flen := if l = .layerI then (12 * bitrate / rate + pad) * 4 else 144 * bitrate / rate + pad
      exec (.mpgdrv h) s =
        .next (respond ⟨0x2100, [payloadWord bitrate, payloadWord rate, payloadWord flen]⟩ s)) ∧
    (∀ h', bitsOf h' 0 21 = bitsOf h 0 21 → exec (.mpgdrv h') s = exec (.mpgdrv h) s)

/-- R151: the bitrate table by version and layer, and that no table is selected exactly when one of them is Reserved. -/
def Obligations.BitrateTableChoice : Prop :=
  ∀ (v : Version) (l : Layer),
    (bitrateTable v l = none ↔ v = .reserved ∨ l = .reserved) ∧
    (v = .mpeg1 → (l = .layerI → bitrateTable v l = some .v1l1) ∧ (l = .layerII → bitrateTable v l = some .v1l2) ∧
      (l = .layerIII → bitrateTable v l = some .v1l3)) ∧
    (v = .mpeg2 ∨ v = .mpeg25 → (l = .layerI → bitrateTable v l = some .v2l1) ∧
      (l = .layerII ∨ l = .layerIII → bitrateTable v l = some .v2l2l3))

/-- The raw bits on which the commands turn, under the spec's codings (R143 to R146). Layer 0b00 = Reserved is the source's;
the others here are the spec's general knowledge (GK3, log entry 9). -/
def Obligations.RawBitsThatDecide : Prop :=
  (∀ v, blockParams.versionOf v = .reserved ↔ v = 0b01) ∧ (∀ l, blockParams.layerOf l = .reserved ↔ l = 0b00) ∧
  (∀ l, blockParams.layerOf l = .layerI ↔ l = 0b11) ∧ (∀ p, blockParams.protectionOf p = .crcPresent ↔ p = 0) ∧
  (∀ c, blockParams.channelModeOf c = .singleChannel ↔ c = 0b11)

/-- MPGDRV answers the spec's worked header (R147), and refuses Layer 0b00 whatever the other bits are. -/
def Obligations.MpgdrvOnTheSourcesHeaders : Prop :=
  ∀ s : State,
    exec (.mpgdrv 0xFFFB9064) s = .next (respond ⟨0x2100, [128000, 44100, 417]⟩ s) ∧
    ∀ h : Word, bitsOf h 17 2 = 0 → exec (.mpgdrv h) s = .next (respond ⟨0x2107, []⟩ s)

/-- R149: the sample rate derived from a header, by its raw version and sampling-rate bits. That version 0b11 is MPEG1 is the
source's; the codings of MPEG2 and MPEG2.5 are general knowledge (log entry 9). -/
def Obligations.SampleRateByHeaderBits : Prop :=
  ∀ (h : Word) (d : DerivedFrameValues), drv blockParams h = .ok d →
    (bitsOf h 19 2 = 3 → (bitsOf h 10 2 = 0 → d.sampleRate = 44100) ∧ (bitsOf h 10 2 = 1 → d.sampleRate = 48000) ∧
      (bitsOf h 10 2 = 2 → d.sampleRate = 32000)) ∧
    (bitsOf h 19 2 = 2 → (bitsOf h 10 2 = 0 → d.sampleRate = 22050) ∧ (bitsOf h 10 2 = 1 → d.sampleRate = 24000) ∧
      (bitsOf h 10 2 = 2 → d.sampleRate = 16000)) ∧
    (bitsOf h 19 2 = 0 → (bitsOf h 10 2 = 0 → d.sampleRate = 11025) ∧ (bitsOf h 10 2 = 1 → d.sampleRate = 12000) ∧
      (bitsOf h 10 2 = 2 → d.sampleRate = 8000)) ∧
    bitsOf h 19 2 ≠ 1 ∧ bitsOf h 10 2 ≠ 3

/-- R153: with the default tables a derived frame length is 32 to 2881 bytes, for every header that passes the checks. The
tables are the spec's general knowledge (GK2, GK3, log entries 8 and 9). -/
def Obligations.FrameLengthRange : Prop :=
  ∀ (h : Word) (d : DerivedFrameValues), drv blockParams h = .ok d →
    32 ≤ d.frameLengthBytes ∧ d.frameLengthBytes ≤ 2881

/-- R156: MPGCRC, whatever the checksum function and the tables are: errors of the header decode and of the derivation
first, then a NotProtected frame, then the frame's range, then the verdict. -/
def Obligations.MpgcrcOutcome : Prop :=
  ∀ (s : State) (base : Word),
    (∀ e, hdrdec (bufferOf s) base.toNat = .error e →
      exec (.mpgcrc base) s = .next (respond (errorResponse 0x22 e) s)) ∧
    (∀ h e, hdrdec (bufferOf s) base.toNat = .ok h → drv blockParams h = .error e →
      exec (.mpgcrc base) s = .next (respond (errorResponse 0x22 e) s)) ∧
    (∀ h d, hdrdec (bufferOf s) base.toNat = .ok h → drv blockParams h = .ok d →
      (blockParams.protectionOf (BitVec.ofNat 1 (bitsOf h 16 1)) = .notProtected →
        exec (.mpgcrc base) s = .next (respond ⟨0x2200, [0]⟩ s)) ∧
      (blockParams.protectionOf (BitVec.ofNat 1 (bitsOf h 16 1)) = .crcPresent →
        (s.bufLen.toNat < base.toNat + 6 ∨ s.bufLen.toNat < base.toNat + d.frameLengthBytes →
          exec (.mpgcrc base) s = .next (respond ⟨0x2205, []⟩ s)) ∧
        (base.toNat + 6 ≤ s.bufLen.toNat → base.toNat + d.frameLengthBytes ≤ s.bufLen.toNat →
          let embedded := (byteAt (bufferOf s) (base.toNat + 4)).toNat * 256
            + (byteAt (bufferOf s) (base.toNat + 5)).toNat
          let computed := (Config.crc16X25 (byteList (bufferOf s) base.toNat d.frameLengthBytes)).toNat
          exec (.mpgcrc base) s = .next (respond
            (if computed = embedded then ⟨0x2200, [payloadWord (2 ^ 16 + embedded)]⟩ else ⟨0x220A, []⟩) s))))

/-- R157: the verdict on a protected frame depends on the bytes of the frame alone: two buffers that hold the same
`frame_length_bytes` bytes from the base give the same verdict, whatever follows the frame, for every checksum function
and every table that gives frames of at least 6 bytes. -/
def Obligations.ChecksumCoversTheFrameAlone : Prop :=
  ∀ (p : Params) (b b' : Buffer) (base : Nat) (h : Word) (d : DerivedFrameValues),
    hdrdec b base = .ok h → drv p h = .ok d → 6 ≤ d.frameLengthBytes →
    base + d.frameLengthBytes ≤ b.len → base + d.frameLengthBytes ≤ b'.len →
    (∀ k < d.frameLengthBytes, byteAt b' (base + k) = byteAt b (base + k)) →
    mpgcrc p b' base = mpgcrc p b base

/-! ### Side information (43_side_info.md) -/

/-- R172 with R170's offsets: SIDEINFO in both layouts, for every value of CM under the block's channel-mode coding. -/
def Obligations.SideinfoOutcome : Prop :=
  ∀ (s : State) (base : Word) (cm : BitVec 2),
    (blockParams.channelModeOf cm = .singleChannel →
      (base.toNat + 18 ≤ s.bufLen.toNat → exec (.sideinfo base cm) s =
        .next (respond ⟨0x3000, sidePayload (bufferOf s) base.toNat sideTableSC 144⟩ s)) ∧
      (s.bufLen.toNat < base.toNat + 18 → exec (.sideinfo base cm) s = .next (respond ⟨0x3005, []⟩ s))) ∧
    (blockParams.channelModeOf cm ≠ .singleChannel →
      (base.toNat + 33 ≤ s.bufLen.toNat → exec (.sideinfo base cm) s =
        .next (respond ⟨0x3000, sidePayload (bufferOf s) base.toNat sideTableMC 258⟩ s)) ∧
      (s.bufLen.toNat < base.toNat + 33 → exec (.sideinfo base cm) s = .next (respond ⟨0x3005, []⟩ s)))
end

