-- ==== Sys2Proof/Laws/Decode.lean ====
section
/-! SUPPORT. The layout of the command word: reading the fields of a word laid out from fields gives them back. -/

namespace Sys2Proof

/-- No field of the word overlaps another (R62). -/
theorem fieldsOf_wordOf (f : Fields) : fieldsOf (wordOf f) = f := by
  obtain ⟨opc, len, aux, rsv, arg⟩ := f
  simp only [fieldsOf, wordOf, Fields.mk.injEq]
  refine ⟨?_, ?_, ?_, ?_, ?_⟩ <;>
  · refine BitVec.eq_of_getLsbD_eq fun i hi => ?_
    simp only [BitVec.getLsbD_extractLsb', BitVec.getLsbD_append, hi, decide_true, Bool.true_and]
    split_ifs <;> first | omega | (congr 1; omega)

end Sys2Proof
end

