-- ==== Sys2Proof/Laws/Operands.lean ====
section
/-! SUPPORT. What the shared reading operations can do, said once each. -/

namespace Sys2Proof.Machine

@[simp] theorem ok_bind {α β : Type} (v : α) (k : α → Result β) : ((.ok v : Result α) >>= k) = k v := rfl
@[simp] theorem error_bind {α β : Type} (e : ErrorKind) (k : α → Result β) :
    ((.error e : Result α) >>= k) = .error e := rfl

theorem require_pos {c : Prop} [Decidable c] {e : ErrorKind} (h : c) : require c e = .ok () := if_pos h
theorem require_neg {c : Prop} [Decidable c] {e : ErrorKind} (h : ¬c) : require c e = .error e := if_neg h

/-- A sequence of checks that ends in a value passed its first check. -/
theorem require_bind_eq_ok {α : Type} {c : Prop} [Decidable c] {e : ErrorKind} {k : Unit → Result α} {v : α} :
    (require c e >>= k) = .ok v ↔ c ∧ k () = .ok v := by
  by_cases h : c <;> simp [require, h]

/-- `MemRead` inside the buffer. -/
theorem memRead_of_le {b : Buffer} {a n : Nat} (h : a + n ≤ b.len) : memRead b a n = .ok (bigEndian b a n) := by
  simp [memRead, require_pos h]

/-- `MemRead` past the end of the buffer. -/
theorem memRead_of_lt {b : Buffer} {a n : Nat} (h : b.len < a + n) : memRead b a n = .error .outOfRange := by
  simp [memRead, require_neg (Nat.not_le.2 h)]

/-- `bytes` inside the buffer. -/
theorem bytes_of_le {b : Buffer} {a n : Nat} (h : a + n ≤ b.len) : bytes b a n = .ok (byteList b a n) := by
  simp [bytes, require_pos h]

/-- `bytes` past the end of the buffer. -/
theorem bytes_of_lt {b : Buffer} {a n : Nat} (h : b.len < a + n) : bytes b a n = .error .outOfRange := by
  simp [bytes, require_neg (Nat.not_le.2 h)]

@[simp] theorem byteList_length (b : Buffer) (a n : Nat) : (byteList b a n).length = n := by
  induction n generalizing a with
  | zero => rfl
  | succ n ih => simp [byteList, ih]

/-- A big-endian read of `n` bytes is below 256^n. -/
theorem bigEndian_lt (b : Buffer) (a n : Nat) : bigEndian b a n < 256 ^ n := by
  induction n generalizing a with
  | zero => simp [bigEndian]
  | succ n ih =>
    have h1 := ih (a + 1)
    have h2 := (byteAt b a).isLt
    have h3 : (byteAt b a).toNat * 256 ^ n ≤ 255 * 256 ^ n := Nat.mul_le_mul_right _ (by omega)
    simp only [bigEndian, pow_succ]
    omega

/-- The range check of a bit field in bits: the last byte lies in the buffer exactly when the last bit does. -/
theorem endByte_le_iff (a len n : Nat) : endByte a len ≤ n ↔ a + len ≤ 8 * n := by
  simp only [endByte]; omega

/-- The three outcomes of `XB` by its operands alone (R90, R92): a value below 2^len, the width error, the range error. -/
theorem xb_cases (b : Buffer) (base off len : Nat) :
    (1 ≤ len ∧ len ≤ 32 ∧ 8 * base + off + len ≤ 8 * b.len ∧ ∃ v < 2 ^ len, xb b base off len = .ok v) ∨
    (¬(1 ≤ len ∧ len ≤ 32) ∧ xb b base off len = .error .unsupportedFieldWidth) ∨
    (1 ≤ len ∧ len ≤ 32 ∧ 8 * b.len < 8 * base + off + len ∧ xb b base off len = .error .outOfRange) := by
  by_cases hl : 1 ≤ len ∧ len ≤ 32
  · by_cases hr : 8 * base + off + len ≤ 8 * b.len
    · have he := (endByte_le_iff (8 * base + off) len b.len).2 hr
      have hm : startByte (8 * base + off) + (endByte (8 * base + off) len - startByte (8 * base + off)) ≤ b.len := by
        simp only [startByte, endByte] at he ⊢; omega
      refine .inl ⟨hl.1, hl.2, hr, _, ?_, by
        simp only [xb, require_pos hl, require_pos he, memRead_of_le hm, ok_bind]; rfl⟩
      refine Nat.lt_of_le_of_lt Nat.and_le_right ?_
      have : 0 < 2 ^ len := Nat.pos_of_ne_zero (by simp)
      rw [Nat.shiftLeft_eq, Nat.one_mul]; omega
    · refine .inr (.inr ⟨hl.1, hl.2, by omega, ?_⟩)
      simp [xb, require_pos hl, require_neg (fun he => hr ((endByte_le_iff _ _ _).1 he))]
  · exact .inr (.inl ⟨hl, by simp [xb, require_neg hl]⟩)

/-- `rd` moves the cursor by the width it read and raises what `XB` raises (R98). -/
theorem rd_eq (b : Buffer) (c : Cursor) (n : Nat) :
    rd b c n = (xb b c.base c.count n).map fun v => (v, { c with count := c.count + n }) := by
  cases h : xb b c.base c.count n <;> simp [rd, h, Except.map]

end Sys2Proof.Machine
end

