-- ==== Sys2Proof/Laws/Id3.lean ====
section
/-! SUPPORT. The two turns of the walk loop (41_id3.md R125), and what one byte pattern of R116 takes off a sequence. -/

namespace Sys2Proof.Machine

/-- The loop stops at or past its stop, whatever turns are left. -/
theorem walkFrom_stop {b : Buffer} {stop off : Nat} (turns : Nat) (h : stop ≤ off) :
    walkFrom b stop turns off = .ok ([], off) := by
  cases turns with
  | zero => rfl
  | succ n => simp [walkFrom, Nat.not_lt.2 h]

/-- A turn that decodes a frame goes on past it. -/
theorem walkFrom_frame {b : Buffer} {stop off : Nat} {f : Id3Frame} (turns : Nat) (h : off < stop)
    (hf : frm b off = .ok f) :
    walkFrom b stop (turns + 1) off =
      (walkFrom b stop turns (off + 10 + f.size)).map fun r => (f :: r.1, r.2) := by
  cases hr : walkFrom b stop turns (off + 10 + f.size) <;> simp [walkFrom, h, hf, hr, Except.map]

/-- A turn whose frame has an error ends the walk with it. -/
theorem walkFrom_error {b : Buffer} {stop off : Nat} {e : ErrorKind} (turns : Nat) (h : off < stop)
    (hf : frm b off = .error e) : walkFrom b stop (turns + 1) off = .error e := by
  simp [walkFrom, h, hf]

/-- A byte pattern takes one byte per column off the front of a sequence. -/
theorem dropPattern_length {row : List (Byte × Byte)} {s rest : List Byte} (h : dropPattern row s = some rest) :
    s.length = row.length + rest.length := by
  induction row generalizing s with
  | nil => simp_all [dropPattern]
  | cons r row ih =>
    cases s with
    | nil => simp [dropPattern] at h
    | cons v s =>
      simp only [dropPattern] at h
      split_ifs at h
      simp only [List.length_cons, ih h]
      omega

end Sys2Proof.Machine
end

