-- ==== Sys2Proof/Laws/Memory.lean ====
section
/-! SUPPORT. The one operation that changes memory, `loadBytes`, keeps the canonical form and stores exactly the bytes it is
given. -/

namespace Sys2Proof.Machine

/-- A canonical list stays canonical from any lower index on. -/
theorem wfFrom_mono {m : Memory} {lo hi : Nat} (h : lo ≤ hi) (hm : Memory.wfFrom hi m = true) :
    Memory.wfFrom lo m = true := by
  cases m with
  | nil => rfl
  | cons c rest =>
    simp only [Memory.wfFrom, Bool.and_eq_true, decide_eq_true_eq] at hm ⊢
    exact ⟨⟨h.trans hm.1.1, hm.1.2⟩, hm.2⟩

/-- Loading bytes gives memory in canonical form. -/
theorem loadBytes_wfFrom (bytes : List Byte) (a : Nat) : Memory.wfFrom a (loadBytes a bytes) = true := by
  induction bytes generalizing a with
  | nil => rfl
  | cons v rest ih =>
    by_cases hv : v = unlistedByte
    · simpa [loadBytes, hv] using wfFrom_mono (Nat.le_succ a) (ih (a + 1))
    · simp [loadBytes, hv, Memory.wfFrom, ih]

/-- SETBUF's memory is in canonical form. -/
theorem loadBytes_wf (bytes : List Byte) : Memory.wf (loadBytes 0 bytes) = true := loadBytes_wfFrom bytes 0

/-- The memory of State.reset is in canonical form. -/
theorem reset_wf : Memory.wf State.reset.buf = true := rfl

/-- Every cell loaded lies in the range loaded. -/
theorem mem_loadBytes_range (bytes : List Byte) (a : Nat) :
    ∀ c ∈ loadBytes a bytes, a ≤ c.1 ∧ c.1 < a + bytes.length := by
  induction bytes generalizing a with
  | nil => simp [loadBytes]
  | cons v rest ih =>
    intro c hc
    by_cases hv : v = unlistedByte
    · have := ih (a + 1) c (by simpa [loadBytes, hv] using hc)
      simp only [List.length_cons]; omega
    · rcases (by simpa [loadBytes, hv] using hc : c = (a, v) ∨ c ∈ loadBytes (a + 1) rest) with rfl | h
      · simp
      · have := ih (a + 1) c h
        simp only [List.length_cons]; omega

/-- An index below every listed one reads as unlisted. -/
theorem readCell_below (m : Memory) (i : Nat) (h : ∀ c ∈ m, i < c.1) : readCell m i = unlistedByte := by
  induction m with
  | nil => rfl
  | cons c rest ih =>
    have hc := h c (by simp)
    simp only [readCell, if_neg (Nat.ne_of_gt hc)]
    exact ih fun d hd => h d (by simp [hd])

/-- Reading back what was loaded. -/
theorem readCell_loadBytes (bytes : List Byte) (a i : Nat) (h : i < bytes.length) :
    readCell (loadBytes a bytes) (a + i) = bytes[i] := by
  induction bytes generalizing a i with
  | nil => simp at h
  | cons v rest ih =>
    cases i with
    | zero =>
      by_cases hv : v = unlistedByte
      · simpa [loadBytes, hv] using readCell_below _ a fun c hc =>
          Nat.lt_of_lt_of_le (Nat.lt_succ_self a) (mem_loadBytes_range rest (a + 1) c hc).1
      · simp [loadBytes, hv, readCell]
    | succ j =>
      have hj : j < rest.length := by simpa using h
      have hread : readCell (loadBytes (a + 1) rest) (a + (j + 1)) = rest[j] := by
        rw [show a + (j + 1) = a + 1 + j by omega]; exact ih (a + 1) j hj
      by_cases hv : v = unlistedByte
      · simp [loadBytes, hv, hread]
      · simp [loadBytes, hv, readCell, hread]

end Sys2Proof.Machine
end

