-- ==== Sys2Proof/Laws/PerInstr.lean ====
section
/-! SUPPORT. The family OpcodeBits: bits 63:56 of a command's word are its operation code (30_encoding.md R62, R66), which is
what the status word copies as `OPE` (R71). One lemma per constructor. -/

namespace Sys2Proof.Laws.OpcodeBits

/-- Bits 63:56 of the word that spells `i` are its operation code. -/
def Statement (i : Instr) : Prop := (encode i).extractLsb' 56 8 = opcode i

/-- The word's operation code is the field laid out. -/
theorem of_fields (i : Instr) (h : (encodeFields i).opc = opcode i) : Statement i := by
  have hw := congrArg Fields.opc (fieldsOf_wordOf (encodeFields i))
  exact hw.trans h

theorem extract (off : Word) (len : Byte) : Statement (.extract off len) := of_fields _ rfl
theorem cset (pos : Word) : Statement (.cset pos) := of_fields _ rfl
theorem cread (len : Byte) : Statement (.cread len) := of_fields _ rfl
theorem ssdec (base : Word) : Statement (.ssdec base) := of_fields _ rfl
theorem id3hdr : Statement .id3hdr := of_fields _ rfl
theorem id3frm (base : Word) : Statement (.id3frm base) := of_fields _ rfl
theorem id3walk (tagsize : BitVec 28) : Statement (.id3walk tagsize) := of_fields _ rfl
theorem mpghdr (base : Word) : Statement (.mpghdr base) := of_fields _ rfl
theorem mpgdrv (hdr : Word) : Statement (.mpgdrv hdr) := of_fields _ rfl
theorem mpgcrc (base : Word) : Statement (.mpgcrc base) := of_fields _ rfl
theorem sideinfo (base : Word) (cm : BitVec 2) : Statement (.sideinfo base cm) := of_fields _ rfl

end Sys2Proof.Laws.OpcodeBits
end

