-- ==== Sys2Proof/Laws/State.lean ====
section
/-! SUPPORT. One lemma per field per update of the state, and the outcomes of the operations over it. -/

namespace Sys2Proof.Machine

@[simp] theorem respond_buf (r : Response) (s : State) : (respond r s).buf = s.buf := rfl
@[simp] theorem respond_bufLen (r : Response) (s : State) : (respond r s).bufLen = s.bufLen := rfl
@[simp] theorem respond_pos (r : Response) (s : State) : (respond r s).pos = s.pos := rfl
@[simp] theorem respond_pending (r : Response) (s : State) : (respond r s).pending = s.pending := rfl
@[simp] theorem respond_responses (r : Response) (s : State) :
    (respond r s).responses = s.responses ++ [r] := rfl

@[simp] theorem respond_toBlock (r : Response) (s : State) : (respond r s).toBlock = s.toBlock := rfl

@[simp] theorem setPos_buf (p : Word) (b : Block) : (setPos p b).buf = b.buf := rfl
@[simp] theorem setPos_bufLen (p : Word) (b : Block) : (setPos p b).bufLen = b.bufLen := rfl
@[simp] theorem setPos_pos (p : Word) (b : Block) : (setPos p b).pos = p := rfl
@[simp] theorem setPos_self (b : Block) : setPos b.pos b = b := rfl

@[simp] theorem withBlock_toBlock (b : Block) (s : State) : (withBlock b s).toBlock = b := rfl
@[simp] theorem withBlock_pending (b : Block) (s : State) : (withBlock b s).pending = s.pending := rfl
@[simp] theorem withBlock_responses (b : Block) (s : State) : (withBlock b s).responses = s.responses := rfl
@[simp] theorem withBlock_self (s : State) : withBlock s.toBlock s = s := rfl

@[simp] theorem resetBlock_buf (s : State) : (resetBlock s).buf = [] := rfl
@[simp] theorem resetBlock_bufLen (s : State) : (resetBlock s).bufLen = 0 := rfl
@[simp] theorem resetBlock_pos (s : State) : (resetBlock s).pos = 0 := rfl
@[simp] theorem resetBlock_pending (s : State) : (resetBlock s).pending = s.pending := rfl
@[simp] theorem resetBlock_responses (s : State) : (resetBlock s).responses = s.responses := rfl

@[simp] theorem presentCommand_buf (w : CmdWord) (s : State) : (presentCommand w s).buf = s.buf := rfl
@[simp] theorem presentCommand_bufLen (w : CmdWord) (s : State) : (presentCommand w s).bufLen = s.bufLen := rfl
@[simp] theorem presentCommand_pos (w : CmdWord) (s : State) : (presentCommand w s).pos = s.pos := rfl
@[simp] theorem presentCommand_responses (w : CmdWord) (s : State) :
    (presentCommand w s).responses = s.responses := rfl
@[simp] theorem presentCommand_pending (w : CmdWord) (s : State) :
    (presentCommand w s).pending = .command w :: s.pending := rfl

@[simp] theorem bufferOf_respond (r : Response) (s : State) : bufferOf (respond r s) = bufferOf s := rfl
@[simp] theorem blockBuffer_setPos (p : Word) (b : Block) : blockBuffer (setPos p b) = blockBuffer b := rfl
@[simp] theorem bufferOf_withBlock (b : Block) (s : State) : bufferOf (withBlock b s) = blockBuffer b := rfl
@[simp] theorem bufferOf_len (s : State) : (bufferOf s).len = s.bufLen.toNat := rfl

/-- Raising an error is giving the error response (R195). -/
theorem raise_eq_respond (ope : Byte) (e : ErrorKind) (s : State) :
    raise ope e s = respond (errorResponse ope e) s := rfl

/-- Everything a command can do (R61, R195): its block and its payload on success, an error response alone otherwise. -/
theorem perform_cases (ope : Byte) (command : Block → Result (Block × List Word)) (s : State) :
    (∃ b payload, command s.toBlock = .ok (b, payload) ∧
      perform ope command s = .next (respond (okResponse ope payload) (withBlock b s))) ∨
    (∃ e, command s.toBlock = .error e ∧ perform ope command s = .next (respond (errorResponse ope e) s)) := by
  unfold perform
  rcases command s.toBlock with e | ⟨b, payload⟩
  · exact .inr ⟨e, rfl, rfl⟩
  · exact .inl ⟨b, payload, rfl, rfl⟩

/-- A command that writes no state ends in a next state in which only a response has been added. -/
theorem answer_eq (ope : Byte) (command : Block → Result (List Word)) (s : State) :
    answer ope command s = .next (respond (match command s.toBlock with
      | .ok payload => okResponse ope payload
      | .error e => errorResponse ope e) s) := by
  unfold answer perform
  dsimp only
  cases command s.toBlock <;> rfl

theorem answer_of_ok {ope : Byte} {command : Block → Result (List Word)} {s : State} {payload : List Word}
    (h : command s.toBlock = .ok payload) : answer ope command s = .next (respond (okResponse ope payload) s) := by
  rw [answer_eq, h]

theorem answer_of_error {ope : Byte} {command : Block → Result (List Word)} {s : State} {e : ErrorKind}
    (h : command s.toBlock = .error e) : answer ope command s = .next (respond (errorResponse ope e) s) := by
  rw [answer_eq, h]

/-- The two outcomes of SETBUF (R30). -/
theorem setBuf_cases (bytes : List Byte) (s : State) :
    (bytes.length ≤ Config.bufCap ∧ setBuf bytes s =
      .next { s with buf := loadBytes 0 bytes, bufLen := BitVec.ofNat 32 bytes.length, pos := 0 }) ∨
    (Config.bufCap < bytes.length ∧ setBuf bytes s = .refused .bufferTooLong) := by
  by_cases h : bytes.length ≤ Config.bufCap
  · exact .inl ⟨h, if_pos h⟩
  · exact .inr ⟨Nat.lt_of_not_le h, if_neg h⟩

/-- `BUF_CAP` lies in 1 to 2^29 - 1, whatever its value (R6). -/
theorem bufCap_range : 1 ≤ Config.bufCap ∧ Config.bufCap ≤ 2 ^ 29 - 1 := by
  have h := Config.bufCapLessOne.isLt
  simp only [Config.bufCap]
  omega

end Sys2Proof.Machine
end

