-- ==== Sys2Proof/Laws/Step.lean ====
section
/-! SUPPORT. What a command can do to the state, and what a step can do, said once each. -/

namespace Sys2Proof.Machine

/-! Each command as the shared operation it is, so that the laws of `perform` and `answer` apply after one rewrite. -/

theorem exec_extract (off : Word) (len : Byte) (s : State) : exec (.extract off len) s =
    answer opcExtract (fun b => (xb (blockBuffer b) 0 off.toNat len.toNat).map fun v => [payloadWord v]) s := rfl

theorem exec_cset (pos : Word) (s : State) : exec (.cset pos) s =
    .next (respond (okResponse opcCset [pos]) (withBlock (setPos pos s.toBlock) s)) := rfl

theorem exec_cread (len : Byte) (s : State) : exec (.cread len) s =
    perform opcCread (fun b => (xb (blockBuffer b) 0 b.pos.toNat len.toNat).map fun v =>
      (setPos (payloadWord (b.pos.toNat + len.toNat)) b,
        [payloadWord v, payloadWord (b.pos.toNat + len.toNat)])) s := rfl

theorem exec_ssdec (base : Word) (s : State) : exec (.ssdec base) s =
    answer opcSsdec (fun b => (ss (blockBuffer b) base.toNat).map fun v => [payloadWord v]) s := rfl

theorem exec_id3hdr (s : State) : exec .id3hdr s =
    answer opcId3hdr (fun b => (id3Header (blockBuffer b)).map fun h => [payloadWord h.size, id3FlagsWord h]) s := rfl

theorem exec_id3frm (base : Word) (s : State) : exec (.id3frm base) s =
    answer opcId3frm (fun b => (frm (blockBuffer b) base.toNat).map frameWords) s := rfl

theorem exec_id3walk (tagsize : BitVec 28) (s : State) : exec (.id3walk tagsize) s =
    answer opcId3walk (fun b => (id3Walk (blockBuffer b) tagsize.toNat).map fun r => walkWords r.1 r.2) s := rfl

theorem exec_mpghdr (base : Word) (s : State) : exec (.mpghdr base) s =
    answer opcMpghdr (fun b => (hdrdec (blockBuffer b) base.toNat).map fun h => [h]) s := rfl

theorem exec_mpgdrv (hdr : Word) (s : State) : exec (.mpgdrv hdr) s =
    answer opcMpgdrv (fun _ => (drv blockParams hdr).map fun d =>
      [payloadWord d.bitrate, payloadWord d.sampleRate, payloadWord d.frameLengthBytes]) s := rfl

theorem exec_mpgcrc (base : Word) (s : State) : exec (.mpgcrc base) s =
    answer opcMpgcrc (fun b => (mpgcrc blockParams (blockBuffer b) base.toNat).map fun v => [v]) s := rfl

theorem exec_sideinfo (base : Word) (cm : BitVec 2) (s : State) : exec (.sideinfo base cm) s =
    answer opcSideinfo (fun b => (sideInformation blockParams (blockBuffer b) base.toNat cm).map sideWords) s := rfl

/-- `answer_eq` in the form of `exec_next`: `POS` is written with its own value. -/
theorem answer_next (ope : Byte) (command : Block → Result (List Word)) (s : State) :
    ∃ r p, answer ope command s = .next (respond r (withBlock (setPos p s.toBlock) s)) :=
  ⟨_, s.pos, answer_eq ope command s⟩

/-- A command always ends in a next state, which differs from the state before it in `POS` and one response at most: no
fault, no refusal, no memory written. -/
theorem exec_next (i : Instr) (s : State) : ∃ r p, exec i s = .next (respond r (withBlock (setPos p s.toBlock) s)) := by
  cases i with
  | cset pos => exact ⟨_, pos, exec_cset pos s⟩
  | cread len =>
    rw [exec_cread, perform]
    cases xb (blockBuffer s.toBlock) 0 s.pos.toNat len.toNat
    · exact ⟨_, s.pos, rfl⟩
    · exact ⟨_, _, rfl⟩
  | extract off len => exact exec_extract off len s ▸ answer_next _ _ s
  | ssdec base => exact exec_ssdec base s ▸ answer_next _ _ s
  | id3hdr => exact exec_id3hdr s ▸ answer_next _ _ s
  | id3frm base => exact exec_id3frm base s ▸ answer_next _ _ s
  | id3walk tagsize => exact exec_id3walk tagsize s ▸ answer_next _ _ s
  | mpghdr base => exact exec_mpghdr base s ▸ answer_next _ _ s
  | mpgdrv hdr => exact exec_mpgdrv hdr s ▸ answer_next _ _ s
  | mpgcrc base => exact exec_mpgcrc base s ▸ answer_next _ _ s
  | sideinfo base cm => exact exec_sideinfo base cm s ▸ answer_next _ _ s

/-- Everything a step that answers a next state can have done: nothing (nothing was presented), a SETBUF that fits, a reset,
an illegal word, or a command. -/
theorem step_cases {s t : State} (h : step s = .next t) :
    (s.pending = [] ∧ t = s) ∨
    (∃ bytes rest, s.pending = .setbuf bytes :: rest ∧ bytes.length ≤ Config.bufCap ∧
      t = { s with buf := loadBytes 0 bytes, bufLen := BitVec.ofNat 32 bytes.length, pos := 0, pending := rest }) ∨
    (∃ rest, s.pending = .reset :: rest ∧ t = resetBlock { s with pending := rest }) ∨
    (∃ w why rest, s.pending = .command w :: rest ∧ decode w = .error why ∧
      t = illegalCommand w { s with pending := rest }) ∨
    (∃ w i rest, s.pending = .command w :: rest ∧ decode w = .ok i ∧ exec i { s with pending := rest } = .next t) := by
  unfold step takeHostOp at h
  rcases hp : s.pending with _ | ⟨op, rest⟩
  · simp only [hp, Host.Outcome.next.injEq] at h
    exact .inl ⟨rfl, h.symm⟩
  · simp only [hp] at h
    cases op with
    | setbuf bytes =>
      rcases setBuf_cases bytes { s with pending := rest } with ⟨hc, e⟩ | ⟨_, e⟩
      · simp only [e, Host.Outcome.next.injEq] at h
        exact .inr (.inl ⟨bytes, rest, rfl, hc, h.symm⟩)
      · simp [e] at h
    | reset =>
      simp only [Host.Outcome.next.injEq] at h
      exact .inr (.inr (.inl ⟨rest, rfl, h.symm⟩))
    | command w =>
      simp only at h
      cases hd : decode w with
      | error why =>
        simp only [hd, Host.Outcome.next.injEq] at h
        exact .inr (.inr (.inr (.inl ⟨w, why, rest, rfl, hd, h.symm⟩)))
      | ok i =>
        simp only [hd] at h
        exact .inr (.inr (.inr (.inr ⟨w, i, rest, rfl, hd, h⟩)))

end Sys2Proof.Machine
end

