-- ==== Sys2Proof/Tests/Slice0.lean ====
section
/-! SUPPORT. Tests: decoding, one or two steps per command with expected results from the spec's own vectors
(95_test_vectors.md), the check on raw words, and for every obligation with hypotheses a state and operands that meet them. -/

namespace Sys2Proof.Tests
open Sys2Proof.Machine

/-- A state with the given bytes loaded and the cursor at `pos`. -/
def load (bs : List Byte) (pos : Word := 0) : State :=
  { State.reset with buf := loadBytes 0 bs, bufLen := BitVec.ofNat 32 bs.length, pos := pos }

/-- What one step answers to a command word in a state. -/
def reply (w : CmdWord) (s : State) : Option (List Response) :=
  match step (presentCommand w s) with
  | .next t => some t.responses
  | .fault _ => none
  | .refused _ => none

/-- `POS` after one step on a command word. -/
def posAfter (w : CmdWord) (s : State) : Option Word :=
  match step (presentCommand w s) with
  | .next t => some t.pos
  | .fault _ => none
  | .refused _ => none

/-! ### Buffers of 95_test_vectors.md -/

/-- The buffer of V40. -/
def v40 : List Byte := [0xDE, 0xAD, 0xBE, 0xEF, 0x12, 0x34]

/-- The tag T1 of V41.70. -/
def t1 : List Byte :=
  [0x49, 0x44, 0x33, 0x03, 0x00, 0x00, 0x00, 0x00, 0x00, 0x23,
   0x54, 0x49, 0x54, 0x32, 0x00, 0x00, 0x00, 0x03, 0x00, 0x00, 0x41, 0x42, 0x43,
   0x54, 0x50, 0x45, 0x31, 0x00, 0x00, 0x00, 0x0C, 0x00, 0x00,
   0x43, 0x61, 0x66, 0xC3, 0xA9, 0x20, 0x54, 0x61, 0x63, 0x76, 0x62, 0x61]

/-- A frame "TIT2" with the given content (V41.40 and others). -/
def tit2 (size : Byte) (content : List Byte) : List Byte :=
  [0x54, 0x49, 0x54, 0x32, 0x00, 0x00, 0x00, size, 0x00, 0x00] ++ content

/-- The protected frame F1 of V42.30. -/
def f1 : List Byte :=
  [0xFF, 0xFE, 0x14, 0x00, 0x5D, 0x78, 0x01, 0x02, 0x03, 0x04, 0x05, 0x06, 0x07, 0x08, 0x09, 0x0A,
   0x0B, 0x0C, 0x0D, 0x0E, 0x0F, 0x10, 0x11, 0x12, 0x13, 0x14, 0x15, 0x16, 0x17, 0x18, 0x19, 0x00]

/-- The buffer Q of V43: byte i is 10H + i. -/
def q : List Byte := (List.range 33).map fun i => BitVec.ofNat 8 (0x10 + i)

/-- The instance of `crc16_x25` of 93_implementation_defined.md GK4, for tests alone. -/
def crcGk4 (s : List Byte) : BitVec 16 :=
  (s.foldl (fun crc v =>
    (List.range 8).foldl (fun c _ => if c.getLsbD 0 then (c >>> 1) ^^^ 0x8408 else c >>> 1) (crc ^^^ v.setWidth 16))
    0xFFFF) ^^^ 0xFFFF

/-! ### Legal words and decoding -/

/-- One ill-formed word per check of R63 and one per row of V30. -/
def illFormed : List CmdWord :=
  [0x0000000000000000, 0x0400000000000000, 0x1400000000000000, 0x2300000000000000, 0x3100000000000000,
   0xFF00000000000000, 0x0108010000000000, 0x0200000100000000, 0x0201000000000000, 0x0300000000000001,
   0x1001000000000000, 0x1100000000000001, 0x1300000010000000, 0x2000000100000000, 0x2100010000000000,
   0x3000040000000000]

/-- The check on raw words refuses each of V30. -/
theorem test_ill_formed_words_refused : illFormed.all (fun w => !wellFormedWord w) = true := by decide

/-- V30: each is answered by ERR = 12 and the word's top byte as OPE. -/
theorem test_ill_formed_words_answered :
    illFormed.map (fun w => reply w State.reset) =
      [0x000C, 0x040C, 0x140C, 0x230C, 0x310C, 0xFF0C, 0x010C, 0x020C, 0x020C, 0x030C, 0x100C, 0x110C, 0x130C, 0x200C,
       0x210C, 0x300C].map (fun st => some [⟨st, []⟩]) := by decide

/-- V30, legal words with extreme fields. -/
theorem test_extreme_words_legal :
    [0x01FF0000FFFFFFFF, 0x03FF000000000000, 0x02000000FFFFFFFF, 0x130000000FFFFFFF, 0x30000300FFFFFFFF].all
      wellFormedWord = true := by decide

/-- The decoder names why a word is illegal (R63). -/
theorem test_illegal_reasons :
    decode 0x0400000000000000 = .error .unknownOpcode ∧ decode 0x0201000000000000 = .error .nonzeroLen ∧
    decode 0x0108010000000000 = .error .nonzeroAux ∧ decode 0x0200000100000000 = .error .nonzeroRsv ∧
    decode 0x1300000010000000 = .error .nonzeroArg := by decide

/-! Every constructor's decoding, by a word laid out from R62 and R66: OPC, LEN, AUX, RSV, ARG. -/

theorem test_decode_extract : decode (0b00000001#8 ++ 0x0B#8 ++ 0#8 ++ 0#8 ++ 0x00000005#32) = .ok (.extract 5 11) := by decide
theorem test_decode_cset : decode (0b00000010#8 ++ 0#8 ++ 0#8 ++ 0#8 ++ 0xFFFFFFFF#32) = .ok (.cset 0xFFFFFFFF) := by decide
theorem test_decode_cread : decode (0b00000011#8 ++ 0xFF#8 ++ 0#8 ++ 0#8 ++ 0#32) = .ok (.cread 255) := by decide
theorem test_decode_ssdec : decode (0b00010000#8 ++ 0#8 ++ 0#8 ++ 0#8 ++ 0x00000002#32) = .ok (.ssdec 2) := by decide
theorem test_decode_id3hdr : decode (0b00010001#8 ++ 0#8 ++ 0#8 ++ 0#8 ++ 0#32) = .ok .id3hdr := by decide
theorem test_decode_id3frm : decode (0b00010010#8 ++ 0#8 ++ 0#8 ++ 0#8 ++ 0x0000000A#32) = .ok (.id3frm 10) := by decide
theorem test_decode_id3walk : decode (0b00010011#8 ++ 0#8 ++ 0#8 ++ 0#8 ++ 0x0FFFFFFF#32) = .ok (.id3walk 0xFFFFFFF) := by decide
theorem test_decode_mpghdr : decode (0b00100000#8 ++ 0#8 ++ 0#8 ++ 0#8 ++ 0x00000001#32) = .ok (.mpghdr 1) := by decide
theorem test_decode_mpgdrv : decode (0b00100001#8 ++ 0#8 ++ 0#8 ++ 0#8 ++ 0xFFFB9064#32) = .ok (.mpgdrv 0xFFFB9064) := by decide
theorem test_decode_mpgcrc : decode (0b00100010#8 ++ 0#8 ++ 0#8 ++ 0#8 ++ 0x0000002D#32) = .ok (.mpgcrc 45) := by decide
theorem test_decode_sideinfo : decode (0b00110000#8 ++ 0#8 ++ 0b00000011#8 ++ 0#8 ++ 0x00000004#32) = .ok (.sideinfo 4 3) := by decide

/-- The host's own way in: a table word, presented, is what the next step takes. -/
theorem test_table_word : decodeTableWord 64 0x1300000000000023 = some (.id3walk 35) ∧
    (State.reset.withFetchWord 64 0x1300000000000023).pending = [.command 0x1300000000000023] := by decide

/-! ### One step per command, expected results from 95_test_vectors.md -/

/-- V40.13: five bytes, shift 7. -/
theorem test_extract_five_bytes : reply 0x0120000000000001 (load v40) = some [⟨0x0100, [0xBD5B7DDE]⟩] := by decide
/-- V40.29: the sum 2^32 + 31 does not wrap. -/
theorem test_extract_no_wrap : reply 0x01200000FFFFFFFF (load v40) = some [⟨0x0105, []⟩] := by decide
/-- V40.27: width before range. -/
theorem test_extract_width_first : reply 0x0121000000000064 (load v40) = some [⟨0x010B, []⟩] := by decide
/-- V40.48: any position is stored. -/
theorem test_cset_beyond : posAfter 0x02000000FFFFFFFF (load v40) = some 0xFFFFFFFF := by decide
/-- V40.43: 32 bits at an odd offset, and the advance. -/
theorem test_cread_advances : reply 0x0320000000000000 (load v40 15) = some [⟨0x0300, [0xDF77891A, 47]⟩] ∧
    posAfter 0x0320000000000000 (load v40 15) = some 47 := by decide
/-- V40.44: a failed read leaves POS. -/
theorem test_cread_fails_in_place : reply 0x0302000000000000 (load v40 47) = some [⟨0x0305, []⟩] ∧
    posAfter 0x0302000000000000 (load v40 47) = some 47 := by decide
/-- V41.10: view base and value. -/
theorem test_ssdec_base : reply 0x1000000000000002 (load [0xFF, 0, 0, 0, 2, 1]) = some [⟨0x1000, [257]⟩] := by decide
/-- V41.8: a high bit in the third byte. -/
theorem test_ssdec_bad_byte : reply 0x1000000000000000 (load [0, 0x7F, 0x80, 0]) = some [⟨0x1003, []⟩] := by decide
/-- V41.22: all three flags and the largest size. -/
theorem test_id3hdr_flags : reply 0x1100000000000000 (load [0x49, 0x44, 0x33, 3, 0, 0xE0, 0x7F, 0x7F, 0x7F, 0x7F]) =
    some [⟨0x1100, [268435455, 0xE0]⟩] := by decide
/-- V41.27: three things wrong, the version comes first. -/
theorem test_id3hdr_version_first : reply 0x1100000000000000 (load [0x49, 0x44, 0x33, 4, 0, 0x1F, 0, 0, 0x80, 1]) =
    some [⟨0x1102, []⟩] := by decide
/-- V41.45: U+10FFFF, the last valid character. -/
theorem test_id3frm_last_character :
    reply 0x120000000000000A (load (List.replicate 10 0 ++ tit2 4 [0xF4, 0x8F, 0xBF, 0xBF])) =
      some [⟨0x1200, [0x54495432, 4, 20]⟩] := by decide
/-- V41.56: a surrogate. -/
theorem test_id3frm_surrogate :
    reply 0x120000000000000A (load (List.replicate 10 0 ++ tit2 3 [0xED, 0xA0, 0x80])) = some [⟨0x1204, []⟩] := by decide
/-- V41.74: 23 < 24, one more frame. -/
theorem test_id3walk_two_frames : reply 0x130000000000000E (load t1) =
    some [⟨0x1300, [2, 0x54495432, 3, 20, 0x54504531, 12, 33, 45]⟩] := by decide
/-- V41.75: a third frame is tried at the end of the buffer; nothing of the first two is reported. -/
theorem test_id3walk_error_alone : reply 0x1300000000000024 (load t1) = some [⟨0x1305, []⟩] := by decide
/-- V42.2: view base. -/
theorem test_mpghdr_base : reply 0x2000000000000001 (load [0, 0xFF, 0xFB, 0x90, 0x64]) =
    some [⟨0x2000, [0xFFFB9064]⟩] := by decide
/-- V42.6: the last sync bit is 0. -/
theorem test_mpghdr_bad_sync : reply 0x2000000000000000 (load [0xFF, 0xDB, 0x90, 0x64]) = some [⟨0x2006, []⟩] := by decide
/-- V42.12, V42.18, V42.22, V42.27 (source example S4, Layer I with padding, 144 for MPEG2 Layer III, the largest frame). -/
theorem test_mpgdrv_values :
    [0x21000000FFFB9064, 0x21000000FFFF9600, 0x21000000FFF38000, 0x21000000FFE3EA00].map (reply · State.reset) =
      [some [⟨0x2100, [128000, 44100, 417]⟩], some [⟨0x2100, [288000, 48000, 292]⟩],
       some [⟨0x2100, [64000, 22050, 417]⟩], some [⟨0x2100, [160000, 8000, 2881]⟩]] := by decide
/-- V42.43, V42.47, V42.49: the order of the checks. -/
theorem test_mpgdrv_order :
    [0x21000000FFF90C00, 0x21000000FFFB0C64, 0x21000000FFFB9C64].map (reply · State.reset) =
      [some [⟨0x2107, []⟩], some [⟨0x2108, []⟩], some [⟨0x2109, []⟩]] := by decide
/-- V42.38: NotProtected, although the frame is not in the buffer. -/
theorem test_mpgcrc_unprotected : reply 0x2200000000000000 (load [0xFF, 0xFB, 0x90, 0x64]) =
    some [⟨0x2200, [0]⟩] := by decide
/-- V42.30, V42.32 with the GK4 instance of the checksum: a match and a mismatch. -/
theorem test_mpgcrc_verdicts :
    mpgcrc { blockParams with crc16X25 := crcGk4 } ⟨loadBytes 0 f1, 32⟩ 0 = .ok 0x00015D78 ∧
    mpgcrc { blockParams with crc16X25 := crcGk4 } ⟨loadBytes 0 (f1.take 31 ++ [1]), 32⟩ 0 =
      .error .checksumMismatch := by decide +kernel
/-- V43.8: the single-channel layout. -/
theorem test_sideinfo_single : reply 0x3000030000000000 (load q) =
    some [⟨0x3000, [32, 1, 1, 289, 98, 130, 10, 0, 361926, 0, 3, 0, 0, 1, 0, 0, 0,
      417, 355, 131, 10, 0, 493512, 0, 4, 0, 0, 1, 0, 0, 0, 144]⟩] := by decide
/-- V43.9: the multi-channel layout. -/
theorem test_sideinfo_multi : reply 0x3000000000000000 (load q) =
    some [⟨0x3000, [32, 4, 68, 0x84C505, 0x11617, 0x1819, 26, 0, 0x1B1C1D1E, 31, 8, 0, 0, 2, 0, 0, 0,
      0x122232, 0x10949, 0x89CA, 10, 1, 0x0A8ACB0B, 75, 34, 3, 3, 0, 0, 0, 0, 258]⟩] := by decide
/-- R29: the state after reset. -/
theorem test_reset : State.reset.pos = 0 ∧ State.reset.bufLen = 0 := by decide
/-- R148: the tables have 15 entries each. -/
theorem test_tables_have_15_entries :
    [BitrateTable.v1l1, .v1l2, .v1l3, .v2l1, .v2l2l3].all (fun t => (bitrateKbps t).length == 15) = true := by decide

/-! ### Witnesses: for each obligation with hypotheses, a state and operands that meet all of them, clause by clause, at the
edges of the ranges. -/

/-- A buffer of the given bytes. -/
def buffer (bs : List Byte) : Buffer := ⟨loadBytes 0 bs, bs.length⟩

theorem witness_EncodeInvertsDecode : decode 0x3000030000000004 = .ok (.sideinfo 4 3) := by decide
theorem witness_DecodeFollowsMatchAndMask :
    (⟨"ID3WALK", 0x1300000000000000, 0xFFFFFFFFF0000000⟩ : OpcodeRow) ∈ opcodeTable := by decide
theorem witness_StepRunsDecodedCommand :
    (presentCommand 0x1000000000000000 (load [0, 0, 2, 1])).pending = .command 0x1000000000000000 :: [] ∧
    decode 0x1000000000000000 = .ok (.ssdec 0) := by decide
theorem witness_StepActsOnTheBlockAlone :
    { load v40 with pending := [.setbuf [7]] }.pending = .setbuf [7] :: [] ∧
    { respond ⟨0, []⟩ (load v40) with pending := [.setbuf [7], .reset] }.pending = .setbuf [7] :: [.reset] ∧
    { respond ⟨0, []⟩ (load v40) with pending := [.setbuf [7], .reset] }.toBlock =
      { load v40 with pending := [.setbuf [7]] }.toBlock := ⟨rfl, rfl, rfl⟩
theorem witness_IllegalWordOnlyAnswers :
    (presentCommand 0xFF00000000000000 State.reset).pending = .command 0xFF00000000000000 :: [] ∧
    wellFormedWord 0xFF00000000000000 = false := by decide
theorem witness_EveryWordGetsOneResponse :
    (presentCommand 0x0301000000000000 (load v40)).pending = .command 0x0301000000000000 :: [] := by decide
theorem witness_PayloadHasTheListedLength :
    exec (.ssdec 0) (load [0, 0, 2, 1]) = .next (respond ⟨0x1000, [257]⟩ (load [0, 0, 2, 1])) ∧
    bitsOf 0x1000 0 8 = 0 := ⟨rfl, by decide⟩
theorem witness_SetbufLoadsTheBytes :
    { State.reset with pending := [.setbuf [7]] }.pending = .setbuf [7] :: [] ∧ [7].length ≤ Config.bufCap :=
  ⟨rfl, bufCap_range.1⟩
theorem witness_SetbufBeyondCapacityIsRefused :
    { State.reset with pending := [.setbuf (List.replicate (2 ^ 29) 0)] }.pending =
      .setbuf (List.replicate (2 ^ 29) 0) :: [] ∧ Config.bufCap < (List.replicate (2 ^ 29) (0 : Byte)).length ∧
    Config.bufCap < (List.replicate (Config.bufCap + 1) (0 : Byte)).length :=
  ⟨rfl, by rw [List.length_replicate]; have := bufCap_range.2; omega, by rw [List.length_replicate]; exact Nat.lt_succ_self _⟩
theorem witness_ResetEventEmptiesTheBlock :
    { load v40 with pending := [.reset] }.pending = .reset :: [] ∧
    1 ≤ (1 : Byte).toNat ∧ (1 : Byte).toNat ≤ 32 := by decide
theorem witness_EmptyBufferBehaviour :
    State.reset.bufLen = 0 ∧ (1 ≤ (32 : Byte).toNat ∧ (32 : Byte).toNat ≤ 32) ∧
    ((0 : Byte).toNat = 0 ∧ 32 < (33 : Byte).toNat) ∧ (1 : BitVec 28) ≠ 0 ∧
    drv blockParams 0xFFFB9064 = .ok ⟨128000, 44100, 417⟩ ∧ drv blockParams 0 = .error .reservedField := by
  decide +kernel
theorem witness_StepKeepsTheInvariant :
    StateInv (presentCommand 0x0308000000000000 (load [7])) ∧
    step (presentCommand 0x0308000000000000 (load [7])) = .next (respond ⟨0x0300, [7, 8]⟩ (load [7] 8)) :=
  ⟨⟨by decide, by decide, bufCap_range.1⟩, rfl⟩
theorem witness_NoCommandWritesMemory :
    exec (.cread 8) (load [7]) = .next (respond ⟨0x0300, [7, 8]⟩ (load [7] 8)) := rfl
theorem witness_OnlyCursorCommandsWritePos :
    (∀ pos, Instr.id3hdr ≠ .cset pos) ∧ (∀ len, Instr.id3hdr ≠ .cread len) := by simp
theorem witness_FailedCommandLeavesNoTrace :
    exec (.cread 9) (load [7]) = .next (respond ⟨0x0305, []⟩ (load [7])) ∧ bitsOf 0x0305 0 8 ≠ 0 := ⟨rfl, by decide⟩
theorem witness_CommandsRaiseOnlyTheirKinds :
    exec (.mpghdr 0) (load [0, 0, 0, 0]) = .next (respond ⟨0x2006, []⟩ (load [0, 0, 0, 0])) := rfl
/-- One valid byte, and a second state that holds another byte at index 1, beyond `BUF_LEN`. -/
theorem witness_AnswersDependOnBufferAlone :
    { load [7] with buf := [(0, 7), (1, 9)] }.bufLen = (load [7]).bufLen ∧
    (∀ k < (load [7]).bufLen.toNat,
      byteAt (bufferOf { load [7] with buf := [(0, 7), (1, 9)] }) k = byteAt (bufferOf (load [7])) k) ∧
    { load [7] with buf := [(0, 7), (1, 9)] }.buf ≠ (load [7]).buf ∧
    (∀ len, Instr.ssdec 0 ≠ .cread len) ∧ { load [7] with buf := [(0, 7), (1, 9)] }.pos = (load [7]).pos :=
  ⟨rfl, by decide, by decide, by simp, rfl⟩
theorem witness_Utf8RefusesWhatTheRuleNames :
    utf8Valid [0xC2, 0x80, 0xE0, 0xA0, 0x80, 0xED, 0x9F, 0xBF, 0xF0, 0x90, 0x80, 0x80, 0xF4, 0x8F, 0xBF, 0xBF] = true ∧
    ([0xC2, 0x80] : List Byte)[0]? = some 0xC2 ∧ 0xC2 ≤ (0xC2 : Byte).toNat := by decide
theorem witness_ExtractionClosedForm :
    (8 * 1 + 7 + 1 ≤ 8 * (buffer [1, 2]).len ∧ 8 * 0 + 0 + 16 ≤ 8 * (buffer [1, 2]).len) ∧
    8 * (buffer [1, 2]).len < 8 * 1 + 7 + 2 ∧ ((0 = 0 ∨ 32 < 0) ∧ (33 = 0 ∨ 32 < 33)) := by decide
theorem witness_MixedWidthReadsAgree : 8 * 0 + 0 + (1 + 31) ≤ 8 * (buffer [1, 2, 3, 4]).len := by decide
theorem witness_AllOnesBufferGivesAllOnes :
    (∀ k < (buffer [0xFF, 0xFF]).len, byteAt (buffer [0xFF, 0xFF]) k = 0xFF) ∧
    15 + 1 ≤ 8 * (buffer [0xFF, 0xFF]).len := by decide
theorem witness_FieldSpansOneToFiveBytes : 1 ≤ 32 ∧ 32 ≤ 32 ∧ 32 < 1 % 8 + 32 ∧ ¬32 < 0 % 8 + 32 := by decide
theorem witness_CursorReadsAdjacentFields :
    ([3, 13] : List Nat) ≠ [] ∧ (∀ n ∈ ([3, 13] : List Nat), 1 ≤ n ∧ n ≤ 32) ∧
    8 * 0 + 0 + [3, 13].sum ≤ 8 * (buffer [1, 2]).len ∧ 8 * (buffer [1, 2]).len < 8 * 0 + 1 + [3, 13].sum := by decide
theorem witness_ExtractOutcome :
    ((8 : Word).toNat + (8 : Byte).toNat ≤ 8 * (load [1, 2]).bufLen.toNat) ∧
    ((0 : Byte).toNat = 0 ∧ 32 < (33 : Byte).toNat) ∧
    8 * (load [1, 2]).bufLen.toNat < (9 : Word).toNat + (8 : Byte).toNat := by decide
theorem witness_CsetOutcome :
    exec (.cset 9) (load [1, 2]) = .next (respond ⟨0x0200, [9]⟩ (load [1, 2] 9)) ∧
    8 * (load [1, 2]).bufLen.toNat < (9 : Word).toNat + (8 : Byte).toNat := ⟨rfl, by decide⟩
theorem witness_CreadOutcome :
    ((load [1, 2] 8).pos.toNat + (8 : Byte).toNat ≤ 8 * (load [1, 2] 8).bufLen.toNat) ∧
    ((0 : Byte).toNat = 0 ∧ 32 < (255 : Byte).toNat) ∧
    8 * (load [1, 2] 16).bufLen.toNat < (load [1, 2] 16).pos.toNat + (1 : Byte).toNat := by decide
theorem witness_CreadReturnsWhatExtractReturns :
    exec (.extract (load [1, 2] 8).pos 8) (load [1, 2] 8) = .next (respond ⟨0x0100, [2]⟩ (load [1, 2] 8)) := rfl
theorem witness_PosNeverWraps :
    StateInv (load [7]) ∧ exec (.cread 8) (load [7]) = .next (respond ⟨0x0300, [7, 8]⟩ (load [7] 8)) ∧
    (respond ⟨0x0300, [7, 8]⟩ (load [7] 8)).pos ≠ (load [7]).pos :=
  ⟨⟨by decide, by decide, bufCap_range.1⟩, rfl, by decide⟩
theorem witness_SynchsafeDecode :
    (buffer [0, 0, 0]).len < 0 + 4 ∧ ¬synchsafeOk (buffer [0, 0, 0, 0x80]) 0 ∧
    synchsafeOk (buffer [0x7F, 0x7F, 0x7F, 0x7F]) 0 ∧
    (∀ k < 4, (byteAt (buffer [0x7F, 0x7F, 0x7F, 0x7F]) (0 + k)).toNat = ((2 ^ 28 - 1) >>> (7 * (3 - k))) % 128) := by
  decide
theorem witness_SsdecOutcome :
    (load [0, 0, 0, 0]).bufLen.toNat < (1 : Word).toNat + 4 ∧
    ((0 : Word).toNat + 4 ≤ (load [0, 0, 0, 0x80]).bufLen.toNat ∧ ¬synchsafeOk (bufferOf (load [0, 0, 0, 0x80])) 0) ∧
    ((0 : Word).toNat + 4 ≤ (load [0, 0, 0, 0x7F]).bufLen.toNat ∧ synchsafeOk (bufferOf (load [0, 0, 0, 0x7F])) 0) := by
  decide
theorem witness_Id3hdrOutcome :
    (load (List.replicate 9 0)).bufLen.toNat < 10 ∧
    (10 ≤ (load (List.replicate 10 0)).bufLen.toNat ∧ (byteAt (bufferOf (load (List.replicate 10 0))) 3).toNat ≠ 3) ∧
    ((byteAt (bufferOf (load [0, 0, 0, 3, 0, 1, 0, 0, 0, 0])) 3).toNat = 3 ∧
      (byteAt (bufferOf (load [0, 0, 0, 3, 0, 1, 0, 0, 0, 0])) 5).toNat % 32 ≠ 0) ∧
    ((byteAt (bufferOf (load [0, 0, 0, 3, 0, 0xE0, 0x80, 0, 0, 0])) 3).toNat = 3 ∧
      (byteAt (bufferOf (load [0, 0, 0, 3, 0, 0xE0, 0x80, 0, 0, 0])) 5).toNat % 32 = 0 ∧
      ¬synchsafeOk (bufferOf (load [0, 0, 0, 3, 0, 0xE0, 0x80, 0, 0, 0])) 6) ∧
    (10 ≤ (load [0, 0, 0, 3, 0, 0xE0, 0, 0, 0, 0x7F]).bufLen.toNat ∧
      (byteAt (bufferOf (load [0, 0, 0, 3, 0, 0xE0, 0, 0, 0, 0x7F])) 3).toNat = 3 ∧
      (byteAt (bufferOf (load [0, 0, 0, 3, 0, 0xE0, 0, 0, 0, 0x7F])) 5).toNat % 32 = 0 ∧
      synchsafeOk (bufferOf (load [0, 0, 0, 3, 0, 0xE0, 0, 0, 0, 0x7F])) 6) := by decide
theorem witness_Id3frmOutcome :
    (load (List.replicate 9 0)).bufLen.toNat < (0 : Word).toNat + 10 ∧
    ((0 : Word).toNat + 10 ≤ (load (0xFF :: List.replicate 9 0)).bufLen.toNat ∧
      utf8Valid (byteList (bufferOf (load (0xFF :: List.replicate 9 0))) 0 4) = false) ∧
    (utf8Valid (byteList (bufferOf (load (tit2 0x83 []))) 0 4) = true ∧ ¬synchsafeOk (bufferOf (load (tit2 0x83 []))) 4) ∧
    (utf8Valid (byteList (bufferOf (load (tit2 3 [0x41, 0x42]))) 0 4) = true ∧
      synchsafeOk (bufferOf (load (tit2 3 [0x41, 0x42]))) 4 ∧
      (load (tit2 3 [0x41, 0x42])).bufLen.toNat < 0 + 10 + synchsafeValue (bufferOf (load (tit2 3 [0x41, 0x42]))) 4) ∧
    (utf8Valid (byteList (bufferOf (load (tit2 1 [0x80]))) 0 4) = true ∧ synchsafeOk (bufferOf (load (tit2 1 [0x80]))) 4 ∧
      0 + 10 + synchsafeValue (bufferOf (load (tit2 1 [0x80]))) 4 ≤ (load (tit2 1 [0x80])).bufLen.toNat ∧
      utf8Valid (byteList (bufferOf (load (tit2 1 [0x80]))) 10
        (synchsafeValue (bufferOf (load (tit2 1 [0x80]))) 4)) = false) ∧
    FrameAt (bufferOf (load (tit2 3 [0x41, 0x42, 0x43]))) 0 ⟨0x54495432, 3, 10⟩ := by decide

/-- T1's two frames, walked to the end of the tag (V41.70), and to the end of the buffer where a third has an error
(V41.75). -/
theorem witness_Id3walkOutcome :
    (Walks (bufferOf (load t1)) (35 + 10) 10 [⟨0x54495432, 3, 20⟩, ⟨0x54504531, 12, 33⟩] 45 ∧ 35 + 10 ≤ 45) ∧
    (Walks (bufferOf (load t1)) (36 + 10) 10 [⟨0x54495432, 3, 20⟩, ⟨0x54504531, 12, 33⟩] 45 ∧ 45 < 36 + 10 ∧
      frm (bufferOf (load t1)) 45 = .error .outOfRange) :=
  ⟨⟨.turn _ _ _ _ (by decide) (by decide) (.turn _ _ _ _ (by decide) (by decide) (.here _)), by decide⟩,
   ⟨.turn _ _ _ _ (by decide) (by decide) (.turn _ _ _ _ (by decide) (by decide) (.here _)), by decide, rfl⟩⟩
theorem witness_WalkIsBounded : id3Walk (buffer t1) 1 = .ok ([⟨0x54495432, 3, 20⟩], 23) := rfl
theorem witness_ZeroPaddingIsAnEmptyFrame :
    0 + 10 ≤ (buffer (List.replicate 10 0)).len ∧ (∀ k < 10, byteAt (buffer (List.replicate 10 0)) (0 + k) = 0) := by decide
theorem witness_MpghdrOutcome :
    (load [0xFF, 0xE0, 0]).bufLen.toNat < (0 : Word).toNat + 4 ∧
    ((0 : Word).toNat + 4 ≤ (load [0xFF, 0xDF, 0xFF, 0xFF]).bufLen.toNat ∧
      bigEndian (bufferOf (load [0xFF, 0xDF, 0xFF, 0xFF])) 0 4 / 2 ^ 21 ≠ 0x7FF) ∧
    ((0 : Word).toNat + 4 ≤ (load [0xFF, 0xE0, 0, 0]).bufLen.toNat ∧
      bigEndian (bufferOf (load [0xFF, 0xE0, 0, 0])) 0 4 / 2 ^ 21 = 0x7FF) := by decide
theorem witness_HeaderImageLayout : hdrdec (buffer [0xFF, 0xFB, 0x90, 0x64]) 0 = .ok 0xFFFB9064 := by decide
theorem witness_MpgdrvOutcome :
    (blockParams.versionOf (BitVec.ofNat 2 (bitsOf 0xFFEB9000 19 2)) = .reserved ∧
      blockParams.layerOf (BitVec.ofNat 2 (bitsOf 0xFFF99000 17 2)) = .reserved) ∧
    (blockParams.versionOf (BitVec.ofNat 2 (bitsOf 0xFFFB0064 19 2)) ≠ .reserved ∧
      blockParams.layerOf (BitVec.ofNat 2 (bitsOf 0xFFFB0064 17 2)) ≠ .reserved ∧
      bitsOf 0xFFFB0064 12 4 = 0 ∧ bitsOf 0xFFFBF064 12 4 = 15) ∧
    (bitsOf 0xFFFB1C64 12 4 ≠ 0 ∧ bitsOf 0xFFFBEC64 12 4 ≠ 15 ∧ bitsOf 0xFFFBEC64 10 2 = 3) ∧
    (bitrateTable (blockParams.versionOf (BitVec.ofNat 2 (bitsOf 0xFFFBE864 19 2)))
        (blockParams.layerOf (BitVec.ofNat 2 (bitsOf 0xFFFBE864 17 2))) = some .v1l3 ∧
      bitsOf 0xFFFBE864 12 4 ≠ 0 ∧ bitsOf 0xFFFBE864 12 4 ≠ 15 ∧ bitsOf 0xFFFBE864 10 2 ≠ 3) ∧
    bitsOf 0x001B9064 0 21 = bitsOf 0xFFFB9064 0 21 := by decide
theorem witness_BitrateTableChoice :
    bitrateTable .mpeg1 .layerI = some .v1l1 ∧ bitrateTable .mpeg25 .layerIII = some .v2l2l3 ∧
    bitrateTable .reserved .layerI = none ∧ bitrateTable .mpeg1 .reserved = none := by decide
theorem witness_MpgdrvOnTheSourcesHeaders : bitsOf 0xFFF99064 17 2 = 0 ∧ bitsOf 0x00000000 17 2 = 0 := by decide
theorem witness_SampleRateByHeaderBits :
    (drv blockParams 0xFFFB9000).map (·.sampleRate) = .ok 44100 ∧
    (drv blockParams 0xFFFB9400).map (·.sampleRate) = .ok 48000 ∧
    (drv blockParams 0xFFFB9800).map (·.sampleRate) = .ok 32000 ∧
    (drv blockParams 0xFFF39000).map (·.sampleRate) = .ok 22050 ∧
    (drv blockParams 0xFFF39400).map (·.sampleRate) = .ok 24000 ∧
    (drv blockParams 0xFFF39800).map (·.sampleRate) = .ok 16000 ∧
    (drv blockParams 0xFFE39000).map (·.sampleRate) = .ok 11025 ∧
    (drv blockParams 0xFFE39400).map (·.sampleRate) = .ok 12000 ∧
    (drv blockParams 0xFFE39800).map (·.sampleRate) = .ok 8000 := by
  decide +kernel
theorem witness_FrameLengthRange :
    drv blockParams 0xFFFF1400 = .ok ⟨32000, 48000, 32⟩ ∧ drv blockParams 0xFFE3EA00 = .ok ⟨160000, 8000, 2881⟩ :=
  ⟨by decide +kernel, by decide +kernel⟩
theorem witness_MpgcrcOutcome :
    hdrdec (bufferOf (load [0, 0, 0, 0])) 0 = .error .badFrameSync ∧
    (hdrdec (bufferOf (load [0xFF, 0xF8, 0x90, 0])) 0 = .ok 0xFFF89000 ∧
      drv blockParams 0xFFF89000 = .error .reservedField) ∧
    (hdrdec (bufferOf (load [0xFF, 0xFB, 0x90, 0x64])) 0 = .ok 0xFFFB9064 ∧
      drv blockParams 0xFFFB9064 = .ok ⟨128000, 44100, 417⟩ ∧
      blockParams.protectionOf (BitVec.ofNat 1 (bitsOf 0xFFFB9064 16 1)) = .notProtected) ∧
    (hdrdec (bufferOf (load f1)) 0 = .ok 0xFFFE1400 ∧ drv blockParams 0xFFFE1400 = .ok ⟨32000, 48000, 32⟩ ∧
      blockParams.protectionOf (BitVec.ofNat 1 (bitsOf 0xFFFE1400 16 1)) = .crcPresent ∧
      hdrdec (bufferOf (load (f1.take 31))) 0 = .ok 0xFFFE1400 ∧
      ((load (f1.take 5)).bufLen.toNat < 0 + 6 ∧ (load (f1.take 31)).bufLen.toNat < 0 + 32) ∧
      0 + 6 ≤ (load f1).bufLen.toNat ∧ 0 + 32 ≤ (load f1).bufLen.toNat) :=
  by decide +kernel
theorem witness_ChecksumCoversTheFrameAlone :
    hdrdec (buffer f1) 0 = .ok 0xFFFE1400 ∧ drv blockParams 0xFFFE1400 = .ok ⟨32000, 48000, 32⟩ ∧ 6 ≤ 32 ∧
    0 + 32 ≤ (buffer f1).len ∧ 0 + 32 ≤ (buffer (f1 ++ [0xAA, 0xBB])).len ∧
    (∀ k < 32, byteAt (buffer (f1 ++ [0xAA, 0xBB])) (0 + k) = byteAt (buffer f1) (0 + k)) :=
  by decide +kernel
theorem witness_SideinfoOutcome :
    (blockParams.channelModeOf 3 = .singleChannel ∧ (15 : Word).toNat + 18 ≤ (load q).bufLen.toNat ∧
      (load q).bufLen.toNat < (16 : Word).toNat + 18) ∧
    (blockParams.channelModeOf 1 ≠ .singleChannel ∧ (0 : Word).toNat + 33 ≤ (load q).bufLen.toNat ∧
      (load q).bufLen.toNat < (1 : Word).toNat + 33) := by decide

end Sys2Proof.Tests
end

/-! ## Proofs: the scope's parameters (00_scope.md R6) -/

section
/-! SUPPORT. A read depends on the bytes of its own range alone: the rules of 20_memory.md R44 and 40_bit_extract.md R90
for two buffers that hold the same bytes in one range, whatever their lengths and the bytes outside it. -/

namespace Sys2Proof.Machine

/-- Both buffers hold the range from `lo` up to `hi`, and the same bytes in it. -/
structure SameRange (b b' : Buffer) (lo hi : Nat) : Prop where
  hi_le : hi ≤ b.len
  hi_le' : hi ≤ b'.len
  byteAt_eq : ∀ i, lo ≤ i → i < hi → byteAt b' i = byteAt b i

theorem bigEndian_congr {b b' : Buffer} {a n : Nat} (h : ∀ i, a ≤ i → i < a + n → byteAt b' i = byteAt b i) :
    bigEndian b' a n = bigEndian b a n := by
  induction n generalizing a with
  | zero => rfl
  | succ n ih =>
    rw [bigEndian, bigEndian, h a (by omega) (by omega), ih fun i hlo hhi => h i (by omega) (by omega)]

theorem byteList_congr {b b' : Buffer} {a n : Nat} (h : ∀ i, a ≤ i → i < a + n → byteAt b' i = byteAt b i) :
    byteList b' a n = byteList b a n := by
  induction n generalizing a with
  | zero => rfl
  | succ n ih =>
    rw [byteList, byteList, h a (by omega) (by omega), ih fun i hlo hhi => h i (by omega) (by omega)]

section
variable {b b' : Buffer} {lo hi : Nat} (hs : SameRange b b' lo hi)
include hs

theorem SameRange.memRead_eq {a n : Nat} (hlo : lo ≤ a) (hhi : a + n ≤ hi) : memRead b' a n = memRead b a n := by
  rw [memRead_of_le (hhi.trans hs.hi_le), memRead_of_le (hhi.trans hs.hi_le'),
    bigEndian_congr fun i h1 h2 => hs.byteAt_eq i (by omega) (by omega)]

theorem SameRange.bytes_eq {a n : Nat} (hlo : lo ≤ a) (hhi : a + n ≤ hi) : bytes b' a n = bytes b a n := by
  rw [bytes_of_le (hhi.trans hs.hi_le), bytes_of_le (hhi.trans hs.hi_le'),
    byteList_congr fun i h1 h2 => hs.byteAt_eq i (by omega) (by omega)]

/-- A bit field whose bits lie in the range: `XB` loads no byte outside it. -/
theorem SameRange.xb_eq {base off len : Nat} (hlo : 8 * lo ≤ 8 * base + off) (hhi : 8 * base + off + len ≤ 8 * hi) :
    xb b' base off len = xb b base off len := by
  have hend : endByte (8 * base + off) len ≤ hi := (endByte_le_iff _ _ _).2 hhi
  have hload : memRead b' (startByte (8 * base + off)) (endByte (8 * base + off) len - startByte (8 * base + off)) =
      memRead b (startByte (8 * base + off)) (endByte (8 * base + off) len - startByte (8 * base + off)) := by
    apply hs.memRead_eq <;> simp only [startByte, endByte] at hend ⊢ <;> omega
  simp only [xb, hload, require_pos (hend.trans hs.hi_le), require_pos (hend.trans hs.hi_le')]

end

/-- A cursor's read followed by `k` is a bit-field read followed by `k` at the moved cursor (R98). -/
theorem rd_bind {α : Type} (b : Buffer) (c : Cursor) (n : Nat) (k : Nat × Cursor → Result α) :
    (rd b c n >>= k) = xb b c.base c.count n >>= fun v => k (v, { c with count := c.count + n }) := by
  rw [rd_eq]
  cases xb b c.base c.count n <;> rfl

/-- The header decode reads the four bytes from its base alone (R142). -/
theorem SameRange.hdrdec_eq {b b' : Buffer} {base hi : Nat} (hs : SameRange b b' base hi) (hhi : base + 4 ≤ hi) :
    hdrdec b' base = hdrdec b base := by
  simp (disch := omega) only [hdrdec, rd_bind, require_pos (hhi.trans hs.hi_le), require_pos (hhi.trans hs.hi_le'),
    hs.xb_eq]

end Sys2Proof.Machine
end

section
/-! SUPPORT. The host operation SETBUF as a step takes it (10_state.md R30). -/

namespace Sys2Proof.Machine

theorem step_of_pending_setbuf {s : State} {bytes : List Byte} {rest : List HostOp}
    (hp : s.pending = .setbuf bytes :: rest) : step s = setBuf bytes { s with pending := rest } := by
  simp only [step, takeHostOp, hp]

theorem setBuf_of_lt {bytes : List Byte} (s : State) (h : Config.bufCap < bytes.length) :
    setBuf bytes s = .refused .bufferTooLong := if_neg (Nat.not_le.2 h)

end Sys2Proof.Machine
end

section
open Sys2Proof Sys2Proof.Machine

/-- Settles O53: the header decode, the embedded value and the covered bytes are three reads inside the frame, and each
answers the same in both buffers. -/
theorem checksumCoversTheFrameAlone : Obligations.ChecksumCoversTheFrameAlone := by
  intro p b b' base h d hh hd hlen hb hb' hbytes
  have hs : SameRange b b' base (base + d.frameLengthBytes) := ⟨hb, hb', fun i hlo hhi => by
    have hk := hbytes (i - base) (by omega)
    rwa [Nat.add_sub_cancel' hlo] at hk⟩
  have hheader : hdrdec b' base = .ok h := (hs.hdrdec_eq (by omega)).trans hh
  have hembedded : memRead b' (base + 4) 2 = memRead b (base + 4) 2 := hs.memRead_eq (by omega) (by omega)
  have hcovered : crcRange b' base d.frameLengthBytes = crcRange b base d.frameLengthBytes :=
    hs.bytes_eq le_rfl le_rfl
  have h6 : base + 6 ≤ b.len := by omega
  have h6' : base + 6 ≤ b'.len := by omega
  simp only [mpgcrc, hh, hheader, hd, ok_bind, require_pos h6, require_pos h6', require_pos hb, require_pos hb',
    hembedded, hcovered]

/-- Settles O13: the step is the SETBUF it takes, and that SETBUF does not fit. -/
theorem setbufBeyondCapacityIsRefused : Obligations.SetbufBeyondCapacityIsRefused := by
  intro s bytes rest hp hlong
  rw [step_of_pending_setbuf hp, setBuf_of_lt _ hlong]

end

/-! ## Proofs: the state (10_state.md) -/

section
/-! SUPPORT. The commands' range errors: a view or a field that passes the end of the buffer raises OutOfRange before any
byte is read (20_memory.md R44, 70_reset_and_hazards.md R221). -/

namespace Sys2Proof.Machine

section
variable {b : Buffer}

theorem xb_of_lt {base off len : Nat} (h1 : 1 ≤ len) (h32 : len ≤ 32) (h : 8 * b.len < 8 * base + off + len) :
    xb b base off len = .error .outOfRange := by
  have hend : ¬endByte (8 * base + off) len ≤ b.len := by rw [endByte_le_iff]; omega
  simp only [xb, require_pos (And.intro h1 h32), require_neg hend, ok_bind, error_bind]

theorem xb_of_width {base off len : Nat} (h : len = 0 ∨ 32 < len) :
    xb b base off len = .error .unsupportedFieldWidth := by
  have hlen : ¬(1 ≤ len ∧ len ≤ 32) := by omega
  simp only [xb, require_neg hlen, error_bind]

theorem ss_of_lt {p : Nat} (h : b.len < p + 4) : ss b p = .error .outOfRange := by
  simp only [ss, require_neg (Nat.not_le.2 h), error_bind]

theorem id3Header_of_lt (h : b.len < 10) : id3Header b = .error .outOfRange := by
  simp only [id3Header, require_neg (Nat.not_le.2 h), error_bind]

theorem frm_of_lt {p : Nat} (h : b.len < p + 10) : frm b p = .error .outOfRange := by
  simp only [frm, require_neg (Nat.not_le.2 h), error_bind]

/-- A walk of a tag that is not empty decodes the frame at byte 10 first (R125). -/
theorem id3Walk_of_lt {tagsize : Nat} (hpos : 0 < tagsize) (h : b.len < 20) :
    id3Walk b tagsize = .error .outOfRange := by
  obtain ⟨turns, hturns⟩ : ∃ turns, (tagsize + 9) / 10 = turns + 1 := ⟨(tagsize - 1) / 10, by omega⟩
  rw [id3Walk, hturns, walkFrom_error turns (by omega) (frm_of_lt h)]

theorem hdrdec_of_lt {base : Nat} (h : b.len < base + 4) : hdrdec b base = .error .outOfRange := by
  simp only [hdrdec, require_neg (Nat.not_le.2 h), error_bind]

theorem mpgcrc_of_lt {p : Params} {base : Nat} (h : b.len < base + 4) : mpgcrc p b base = .error .outOfRange := by
  simp only [mpgcrc, hdrdec_of_lt h, error_bind]

/-- SIDEINFO's first read takes nine bits (R172). -/
theorem sideInformation_of_lt {p : Params} {base : Nat} {cm : BitVec 2} (h : 8 * b.len < 8 * base + 9) :
    sideInformation p b base cm = .error .outOfRange := by
  have hfirst : xb b base 0 9 = .error .outOfRange := xb_of_lt (by omega) (by omega) h
  simp only [sideInformation, rd_bind, hfirst, error_bind]

end

section
variable {α : Type} {ope : Byte} {read : Block → Result α} {words : α → List Word} {s : State}

theorem answer_map_of_ok {v : α} (h : read s.toBlock = .ok v) :
    answer ope (fun b => (read b).map words) s = .next (respond (okResponse ope (words v)) s) :=
  answer_of_ok (congrArg (Except.map words) h)

theorem answer_map_of_error {e : ErrorKind} (h : read s.toBlock = .error e) :
    answer ope (fun b => (read b).map words) s = .next (respond (errorResponse ope e) s) :=
  answer_of_error (congrArg (Except.map words) h)

end

/-- Every field of a legal width passes the end of an empty buffer (R22). -/
theorem exec_extract_of_empty {s : State} {off : Word} {len : Byte} (hlen : s.bufLen = 0) (h1 : 1 ≤ len.toNat)
    (h32 : len.toNat ≤ 32) : exec (.extract off len) s = .next (respond ⟨0x0105, []⟩ s) := by
  have hempty : (blockBuffer s.toBlock).len = 0 := congrArg BitVec.toNat hlen
  exact (exec_extract off len s).trans (answer_map_of_error (e := .outOfRange) (xb_of_lt h1 h32 (by omega)))

end Sys2Proof.Machine
end

section
/-! SUPPORT. Every read of the buffer answers from `BUF_LEN` and the bytes below it alone (20_memory.md R44): each reading
operation answers the same in two buffers with the same contents, whatever is listed at or beyond their length. -/

namespace Sys2Proof.Machine

/-- The same length, and the same byte at every index below it. -/
structure SameContents (b b' : Buffer) : Prop where
  len_eq : b'.len = b.len
  byteAt_eq : ∀ k < b.len, byteAt b' k = byteAt b k

namespace SameContents
variable {b b' : Buffer} (hs : SameContents b b')
include hs

theorem memRead_eq (a n : Nat) : memRead b' a n = memRead b a n := by
  rcases Nat.lt_or_ge b.len (a + n) with hlt | hle
  · rw [memRead_of_lt hlt, memRead_of_lt (hs.len_eq ▸ hlt)]
  · rw [memRead_of_le hle, memRead_of_le (hs.len_eq ▸ hle), bigEndian_congr fun i _ hi => hs.byteAt_eq i (by omega)]

theorem bytes_eq (a n : Nat) : bytes b' a n = bytes b a n := by
  rcases Nat.lt_or_ge b.len (a + n) with hlt | hle
  · rw [bytes_of_lt hlt, bytes_of_lt (hs.len_eq ▸ hlt)]
  · rw [bytes_of_le hle, bytes_of_le (hs.len_eq ▸ hle), byteList_congr fun i _ hi => hs.byteAt_eq i (by omega)]

theorem xb_eq (base off len : Nat) : xb b' base off len = xb b base off len := by
  simp only [xb, hs.len_eq, hs.memRead_eq]

theorem rd_eq (c : Cursor) (n : Nat) : rd b' c n = rd b c n := by
  simp only [rd, hs.xb_eq]

theorem ss_eq (p : Nat) : ss b' p = ss b p := by
  rcases Nat.lt_or_ge b.len (p + 4) with hlt | hle
  · rw [ss_of_lt hlt, ss_of_lt (hs.len_eq ▸ hlt)]
  · have hbyte : ∀ i < 4, byteAt b' (p + i) = byteAt b (p + i) := fun i hi => hs.byteAt_eq _ (by omega)
    have h0 : byteAt b' p = byteAt b p := hbyte 0 (by omega)
    simp only [ss, hs.len_eq, h0, hbyte 1 (by omega), hbyte 2 (by omega), hbyte 3 (by omega)]

theorem id3Header_eq : id3Header b' = id3Header b := by
  rcases Nat.lt_or_ge b.len 10 with hlt | hle
  · rw [id3Header_of_lt hlt, id3Header_of_lt (hs.len_eq ▸ hlt)]
  · simp only [id3Header, hs.len_eq, hs.byteAt_eq 3 (by omega), hs.byteAt_eq 5 (by omega), hs.ss_eq]

theorem frm_eq (p : Nat) : frm b' p = frm b p := by
  simp only [frm, hs.len_eq, hs.bytes_eq, hs.ss_eq, hs.memRead_eq]

theorem walkFrom_eq (stop turns off : Nat) : walkFrom b' stop turns off = walkFrom b stop turns off := by
  induction turns generalizing off with
  | zero => rfl
  | succ turns ih => simp only [walkFrom, hs.frm_eq, ih]

theorem id3Walk_eq (tagsize : Nat) : id3Walk b' tagsize = id3Walk b tagsize := hs.walkFrom_eq _ _ _

theorem hdrdec_eq (base : Nat) : hdrdec b' base = hdrdec b base := by
  simp only [hdrdec, hs.len_eq, hs.rd_eq]

theorem mpgcrc_eq (p : Params) (base : Nat) : mpgcrc p b' base = mpgcrc p b base := by
  simp only [mpgcrc, crcRange, hs.hdrdec_eq, hs.len_eq, hs.memRead_eq, hs.bytes_eq]

theorem readGranule_eq (w : Layout) (c : Cursor) : readGranule b' w c = readGranule b w c := by
  simp only [readGranule, hs.rd_eq]

theorem sideInformation_eq (p : Params) (base : Nat) (cm : BitVec 2) :
    sideInformation p b' base cm = sideInformation p b base cm := by
  simp only [sideInformation, hs.rd_eq, hs.readGranule_eq]

end SameContents

end Sys2Proof.Machine
end

section
/-! SUPPORT. Which commands only answer, and what CREAD does (10_state.md R20, R23, R28; 40_bit_extract.md R96). -/

namespace Sys2Proof.Machine

/-- The command writes nothing and answers from the buffer's contents alone. -/
def AnswersFromContents (i : Instr) : Prop :=
  ∃ reads : Buffer → Result (List Word), (∀ b b', SameContents b b' → reads b' = reads b) ∧
    ∀ s, exec i s = answer (opcode i) (fun b => reads (blockBuffer b)) s

theorem AnswersFromContents.of_read {α : Type} {i : Instr} (read : Buffer → Result α) {words : α → List Word}
    (hexec : ∀ s, exec i s = answer (opcode i) (fun b => (read (blockBuffer b)).map words) s)
    (hread : ∀ b b', SameContents b b' → read b' = read b) : AnswersFromContents i :=
  ⟨fun b => (read b).map words, fun b b' hs => congrArg (Except.map words) (hread b b' hs), hexec⟩

/-- Only CSET and CREAD do anything but answer from the buffer's contents. -/
theorem exec_cases (i : Instr) : (∃ pos, i = .cset pos) ∨ (∃ len, i = .cread len) ∨ AnswersFromContents i := by
  cases i with
  | cset pos => exact .inl ⟨pos, rfl⟩
  | cread len => exact .inr (.inl ⟨len, rfl⟩)
  | extract off len =>
    exact .inr (.inr (.of_read (xb · 0 off.toNat len.toNat) (exec_extract off len) fun _ _ hs => hs.xb_eq ..))
  | ssdec base => exact .inr (.inr (.of_read (ss · base.toNat) (exec_ssdec base) fun _ _ hs => hs.ss_eq _))
  | id3hdr => exact .inr (.inr (.of_read id3Header exec_id3hdr fun _ _ hs => hs.id3Header_eq))
  | id3frm base => exact .inr (.inr (.of_read (frm · base.toNat) (exec_id3frm base) fun _ _ hs => hs.frm_eq _))
  | id3walk tagsize =>
    exact .inr (.inr (.of_read (id3Walk · tagsize.toNat) (exec_id3walk tagsize) fun _ _ hs => hs.id3Walk_eq _))
  | mpghdr base => exact .inr (.inr (.of_read (hdrdec · base.toNat) (exec_mpghdr base) fun _ _ hs => hs.hdrdec_eq _))
  | mpgdrv hdr => exact .inr (.inr (.of_read (fun _ => drv blockParams hdr) (exec_mpgdrv hdr) fun _ _ _ => rfl))
  | mpgcrc base =>
    exact .inr (.inr (.of_read (mpgcrc blockParams · base.toNat) (exec_mpgcrc base) fun _ _ hs => hs.mpgcrc_eq ..))
  | sideinfo base cm =>
    exact .inr (.inr (.of_read (sideInformation blockParams · base.toNat cm) (exec_sideinfo base cm)
      fun _ _ hs => hs.sideInformation_eq ..))

theorem exec_cread_of_ok {s : State} {len : Byte} {v : Nat} (h : xb (bufferOf s) 0 s.pos.toNat len.toNat = .ok v) :
    exec (.cread len) s = .next (respond
      (okResponse opcCread [payloadWord v, payloadWord (s.pos.toNat + len.toNat)])
      (withBlock (setPos (payloadWord (s.pos.toNat + len.toNat)) s.toBlock) s)) := by
  rw [bufferOf] at h
  simp only [exec_cread, perform, h, Except.map]

theorem exec_cread_of_error {s : State} {len : Byte} {e : ErrorKind}
    (h : xb (bufferOf s) 0 s.pos.toNat len.toNat = .error e) :
    exec (.cread len) s = .next (respond (errorResponse opcCread e) s) := by
  rw [bufferOf] at h
  simp only [exec_cread, perform, h, Except.map, raise_eq_respond]

/-- What a command answered is the response that its next state has more. -/
theorem answersOf_of_next {i : Instr} {s t : State} {r : Response} (h : exec i s = .next t)
    (hr : t.responses = s.responses ++ [r]) : answersOf i s = some [r] := by
  simp only [answersOf, effect, h, hr, List.drop_left, Option.map_some]

/-- A command answers alike wherever its whole behaviour is an answer to the same result. -/
theorem answersOf_eq_of_answer {i : Instr} {ope : Byte} {s s' : State} {command : Block → Result (List Word)}
    (h : ∀ s, exec i s = answer ope command s) (hc : command s'.toBlock = command s.toBlock) :
    answersOf i s' = answersOf i s := by
  rw [answersOf_of_next ((h s).trans (answer_eq ..)) rfl, answersOf_of_next ((h s').trans (answer_eq ..)) rfl, hc]

end Sys2Proof.Machine
end

section
/-! SUPPORT. A step by the host operation it takes (70_reset_and_hazards.md R226), and why it is a matter of the block alone
(10_state.md R20). -/

namespace Sys2Proof.Machine

theorem step_of_pending_reset {s : State} {rest : List HostOp} (hp : s.pending = .reset :: rest) :
    step s = .next (resetBlock { s with pending := rest }) := by
  simp only [step, takeHostOp, hp]

theorem step_of_pending_illegal {s : State} {w : CmdWord} {rest : List HostOp} {why : Illegal}
    (hp : s.pending = .command w :: rest) (hd : decode w = .error why) :
    step s = .next (illegalCommand w { s with pending := rest }) := by
  simp only [step, takeHostOp, hp, hd]

theorem step_of_pending_legal {s : State} {w : CmdWord} {rest : List HostOp} {i : Instr}
    (hp : s.pending = .command w :: rest) (hd : decode w = .ok i) : step s = exec i { s with pending := rest } := by
  simp only [step, takeHostOp, hp, hd]

theorem setBuf_of_le {bytes : List Byte} (s : State) (h : bytes.length ≤ Config.bufCap) : setBuf bytes s =
    .next (withBlock { buf := loadBytes 0 bytes, bufLen := BitVec.ofNat 32 bytes.length, pos := 0 } s) := if_pos h

/-- The block after a command and its one response are fixed by the block before it. -/
theorem perform_of_toBlock (ope : Byte) (command : Block → Result (Block × List Word)) (b : Block) :
    ∃ b' r, ∀ s : State, s.toBlock = b → perform ope command s = .next (respond r (withBlock b' s)) := by
  cases hc : command b with
  | ok v => exact ⟨v.1, okResponse ope v.2, fun s hs => by simp only [perform, hs, hc]⟩
  | error e =>
    refine ⟨b, errorResponse ope e, fun s hs => ?_⟩
    simp only [perform, hs, hc, raise_eq_respond]
    rw [← hs, withBlock_self]

/-- Every command is such a function of the block. -/
theorem exec_of_toBlock (i : Instr) (b : Block) :
    ∃ b' r, ∀ s : State, s.toBlock = b → exec i s = .next (respond r (withBlock b' s)) := by
  rcases exec_cases i with ⟨pos, rfl⟩ | ⟨len, rfl⟩ | ⟨reads, -, hexec⟩
  · exact perform_of_toBlock opcCset (fun b => .ok (setPos pos b, [pos])) b
  · simpa only [exec_cread] using perform_of_toBlock opcCread _ b
  · simpa only [hexec, answer] using perform_of_toBlock (opcode i) _ b

/-- A step is fixed by the block and the host operation it takes: either it ends in one block with one list of new responses,
or it is refused, whatever the host's side holds besides (R20, R61, R70). -/
theorem step_of_toBlock (op : HostOp) (b : Block) :
    (∃ b' rs, ∀ (s : State) (rest : List HostOp), s.pending = op :: rest → s.toBlock = b →
      step s = .next { toBlock := b', pending := rest, responses := s.responses ++ rs }) ∨
    (∃ why, ∀ (s : State) (rest : List HostOp), s.pending = op :: rest → s.toBlock = b → step s = .refused why) := by
  cases op with
  | setbuf bytes =>
    rcases Nat.lt_or_ge Config.bufCap bytes.length with hlong | hfit
    · exact .inr ⟨_, fun s rest hp _ => (step_of_pending_setbuf hp).trans (setBuf_of_lt _ hlong)⟩
    · refine .inl ⟨⟨loadBytes 0 bytes, BitVec.ofNat 32 bytes.length, 0⟩, [], fun s rest hp _ => ?_⟩
      rw [step_of_pending_setbuf hp, setBuf_of_le _ hfit, List.append_nil]
      rfl
  | reset =>
    refine .inl ⟨Block.reset, [], fun s rest hp _ => ?_⟩
    rw [step_of_pending_reset hp, List.append_nil]
    rfl
  | command w =>
    left
    cases hd : decode w with
    | error why =>
      exact ⟨b, [_], fun s rest hp hs => by rw [step_of_pending_illegal hp hd, ← hs]; rfl⟩
    | ok i =>
      obtain ⟨b', r, hexec⟩ := exec_of_toBlock i b
      exact ⟨b', [r], fun s rest hp hs => (step_of_pending_legal hp hd).trans (hexec _ hs)⟩

end Sys2Proof.Machine
end

section
/-! SUPPORT. What meets the invariant: a block just loaded, a block just reset, and every state with the memory and length
of one that does (10_state.md R20, R21, R29, R30). -/

namespace Sys2Proof.Machine

/-- A natural below 2^32 is its payload word's value (R12). -/
theorem payloadWord_toNat {v : Nat} (h : v < 2 ^ 32) : (payloadWord v).toNat = v := by
  rw [payloadWord, BitVec.toNat_ofNat, Nat.mod_eq_of_lt h]

/-- A length that `BUF_CAP` admits is below 2^32, so `BUF_LEN` holds it as it is (R6, R30). -/
theorem toNat_ofNat_of_le_bufCap {n : Nat} (h : n ≤ Config.bufCap) : (BitVec.ofNat 32 n).toNat = n :=
  payloadWord_toNat (by have := bufCap_range.2; omega)

theorem stateInv_of_loadBytes {t : State} {bytes : List Byte} (hfit : bytes.length ≤ Config.bufCap)
    (hbuf : t.buf = loadBytes 0 bytes) (hlen : t.bufLen = BitVec.ofNat 32 bytes.length) : StateInv t := by
  have hlen' : t.bufLen.toNat = bytes.length := hlen ▸ toNat_ofNat_of_le_bufCap hfit
  refine ⟨hbuf ▸ loadBytes_wf bytes, fun c hc => ?_, hlen' ▸ hfit⟩
  have := (mem_loadBytes_range bytes 0 c (hbuf ▸ hc)).2
  omega

/-- The block of reset is the one that a SETBUF of no bytes leaves. -/
theorem stateInv_of_reset {t : State} (h : t.toBlock = Block.reset) : StateInv t :=
  stateInv_of_loadBytes (bytes := []) (Nat.zero_le _) (congrArg Block.buf h) (congrArg Block.bufLen h)

/-- The invariant speaks of memory and length alone: `POS` and the host's side may change. -/
theorem StateInv.of_memory_eq {s t : State} (hs : StateInv s) (hbuf : t.buf = s.buf) (hlen : t.bufLen = s.bufLen) :
    StateInv t := by
  unfold StateInv
  rw [hbuf, hlen]
  exact hs

end Sys2Proof.Machine
end

section
open Sys2Proof Sys2Proof.Machine

/-- Settles O16: of the five things a step can do, SETBUF and reset load a block anew and the other three keep memory and
length. -/
theorem stepKeepsTheInvariant : Obligations.StepKeepsTheInvariant := by
  intro s t hinv hstep
  rcases step_cases hstep with ⟨-, rfl⟩ | ⟨bytes, rest, -, hfit, rfl⟩ | ⟨rest, -, rfl⟩ | ⟨w, why, rest, -, -, rfl⟩ |
    ⟨w, i, rest, -, -, hexec⟩
  · exact hinv
  · exact stateInv_of_loadBytes hfit rfl rfl
  · exact stateInv_of_reset rfl
  · exact hinv.of_memory_eq rfl rfl
  · obtain ⟨r, p, hnext⟩ := exec_next i { s with pending := rest }
    obtain rfl := Host.Outcome.next.inj (hnext.symm.trans hexec)
    exact hinv.of_memory_eq rfl rfl

/-- Settles O17: State.reset holds the block of reset. -/
theorem invariantHoldsAtReset : Obligations.InvariantHoldsAtReset := stateInv_of_reset rfl

/-- Settles O7: both states take the same operation in the same block, so both steps end in the same block with the same new
responses, or both are refused. -/
theorem stepActsOnTheBlockAlone : Obligations.StepActsOnTheBlockAlone := by
  intro s s' op rest rest' hp hp' hblock
  rcases step_of_toBlock op s.toBlock with ⟨b', rs, hnext⟩ | ⟨why, hrefused⟩
  · rw [hnext s rest hp rfl, hnext s' rest' hp' hblock]
    refine ⟨fun t ht => ?_, nofun⟩
    obtain rfl := Host.Outcome.next.inj ht
    exact ⟨_, rs, rfl, rfl, rfl, rfl, rfl, rfl⟩
  · rw [hrefused s rest hp rfl, hrefused s' rest' hp' hblock]
    exact ⟨nofun, fun _ h => h⟩

/-- Settles O12: SETBUF reads back as the bytes it loaded, and their number fits `BUF_LEN`. -/
theorem setbufLoadsTheBytes : Obligations.SetbufLoadsTheBytes := by
  intro s bytes rest hp hfit
  refine ⟨_, (step_of_pending_setbuf hp).trans (setBuf_of_le _ hfit), toNat_ofNat_of_le_bufCap hfit, fun k hk => ?_,
    rfl, rfl, rfl⟩
  have hread := readCell_loadBytes bytes 0 k hk
  rwa [Nat.zero_add] at hread

/-- Settles O14: the reset block is empty, so every field passes its end. -/
theorem resetEventEmptiesTheBlock : Obligations.ResetEventEmptiesTheBlock := by
  intro s rest hp
  exact ⟨_, step_of_pending_reset hp, rfl, rfl, rfl, rfl, fun off len h1 h32 => exec_extract_of_empty rfl h1 h32⟩

/-- Settles O15: each view and each field passes the end of an empty buffer. -/
theorem emptyBufferBehaviour : Obligations.EmptyBufferBehaviour := by
  intro s hlen
  have hempty : (blockBuffer s.toBlock).len = 0 := congrArg BitVec.toNat hlen
  refine ⟨?extract, ?extractWidth, ?cread, ?creadWidth, ?ssdec, ?id3hdr, ?id3frm, ?walkNone, ?walkSome, ?mpghdr,
    ?mpgdrvOk, ?mpgdrvError, ?mpgcrc, ?sideinfo, ?cset⟩
  case extract => exact fun off len h1 h32 => exec_extract_of_empty hlen h1 h32
  case extractWidth =>
    exact fun off len h => (exec_extract off len s).trans
      (answer_map_of_error (e := .unsupportedFieldWidth) (xb_of_width h))
  case cread =>
    exact fun len h1 h32 =>
      exec_cread_of_error (e := .outOfRange) (xb_of_lt (b := blockBuffer s.toBlock) h1 h32 (by omega))
  case creadWidth => exact fun len h => exec_cread_of_error (e := .unsupportedFieldWidth) (xb_of_width h)
  case ssdec =>
    exact fun base => (exec_ssdec base s).trans (answer_map_of_error (e := .outOfRange) (ss_of_lt (by omega)))
  case id3hdr => exact (exec_id3hdr s).trans (answer_map_of_error (e := .outOfRange) (id3Header_of_lt (by omega)))
  case id3frm =>
    exact fun base => (exec_id3frm base s).trans (answer_map_of_error (e := .outOfRange) (frm_of_lt (by omega)))
  case walkNone => exact (exec_id3walk 0 s).trans (answer_map_of_ok (v := ([], 10)) (walkFrom_stop 0 le_rfl))
  case walkSome =>
    intro tagsize hne
    have hpos : 0 < tagsize.toNat := Nat.pos_of_ne_zero fun h => hne (BitVec.eq_of_toNat_eq h)
    exact (exec_id3walk tagsize s).trans (answer_map_of_error (e := .outOfRange) (id3Walk_of_lt hpos (by omega)))
  case mpghdr =>
    exact fun base => (exec_mpghdr base s).trans (answer_map_of_error (e := .outOfRange) (hdrdec_of_lt (by omega)))
  case mpgdrvOk => exact fun h d hd => (exec_mpgdrv h s).trans (answer_map_of_ok hd)
  case mpgdrvError => exact fun h e he => (exec_mpgdrv h s).trans (answer_map_of_error he)
  case mpgcrc =>
    exact fun base => (exec_mpgcrc base s).trans (answer_map_of_error (e := .outOfRange) (mpgcrc_of_lt (by omega)))
  case sideinfo =>
    exact fun base cm => (exec_sideinfo base cm s).trans
      (answer_map_of_error (e := .outOfRange) (sideInformation_of_lt (by omega)))
  case cset => exact fun pos => exec_cset pos s

/-- Settles O19: a command that only answers keeps the block as it is. -/
theorem onlyCursorCommandsWritePos : Obligations.OnlyCursorCommandsWritePos := by
  intro i s hcset hcread
  rcases exec_cases i with ⟨pos, rfl⟩ | ⟨len, rfl⟩ | ⟨reads, -, hexec⟩
  · exact absurd rfl (hcset pos)
  · exact absurd rfl (hcread len)
  · exact ⟨_, (hexec s).trans (answer_eq ..)⟩

/-- Settles O22: CSET reads nothing, CREAD makes one read at `POS`, and every other command answers from the contents. -/
theorem answersDependOnBufferAlone : Obligations.AnswersDependOnBufferAlone := by
  intro i s s' hlen hbytes hpos
  have hs : SameContents (bufferOf s) (bufferOf s') := ⟨congrArg BitVec.toNat hlen, hbytes⟩
  rcases exec_cases i with ⟨pos, rfl⟩ | ⟨len, rfl⟩ | ⟨reads, hreads, hexec⟩
  · rw [answersOf_of_next (exec_cset pos s) rfl, answersOf_of_next (exec_cset pos s') rfl]
  · have hpos : s'.pos = s.pos := hpos.resolve_left fun h => h len rfl
    have hread := hs.xb_eq 0 s.pos.toNat len.toNat
    cases hx : xb (bufferOf s) 0 s.pos.toNat len.toNat with
    | error e =>
      have hx' : xb (bufferOf s') 0 s'.pos.toNat len.toNat = .error e := by rw [hpos, hread, hx]
      rw [answersOf_of_next (exec_cread_of_error hx) rfl, answersOf_of_next (exec_cread_of_error hx') rfl]
    | ok v =>
      have hx' : xb (bufferOf s') 0 s'.pos.toNat len.toNat = .ok v := by rw [hpos, hread, hx]
      rw [answersOf_of_next (exec_cread_of_ok hx) rfl, answersOf_of_next (exec_cread_of_ok hx') rfl, hpos]
  · exact answersOf_eq_of_answer hexec (hreads _ _ hs)

/-- Settles O33: only a CREAD that succeeds moves `POS`, and the field it read lies in a buffer of fewer than 2^29 bytes. -/
theorem posNeverWraps : Obligations.PosNeverWraps := by
  intro s t len ⟨_, _, hcap⟩ hexec hmoved
  rcases xb_cases (bufferOf s) 0 s.pos.toNat len.toNat with ⟨-, -, hrange, v, -, hx⟩ | ⟨-, hx⟩ | ⟨-, -, -, hx⟩
  case inl =>
    obtain rfl := Host.Outcome.next.inj ((exec_cread_of_ok hx).symm.trans hexec)
    have hbound : s.pos.toNat + len.toNat ≤ 8 * s.bufLen.toNat := by simpa using hrange
    have hpos : (payloadWord (s.pos.toNat + len.toNat)).toNat = s.pos.toNat + len.toNat :=
      payloadWord_toNat (by have := bufCap_range.2; omega)
    exact ⟨hpos, hpos.trans_le hbound⟩
  all_goals
    obtain rfl := Host.Outcome.next.inj ((exec_cread_of_error hx).symm.trans hexec)
    exact absurd rfl hmoved

end

/-! ## Proofs: the buffer (20_memory.md) -/

section
/-! SUPPORT. The load, shift and mask of `XB` give the closed form of the field (40_bit_extract.md R90, R91). The one fact
behind it, and behind reading a field in parts (20_memory.md R51), is that a field's value is the concatenation of the values
of two adjacent parts. -/

namespace Sys2Proof.Machine

/-- Adjacent fields concatenate: the first part stands above the `n` bits of the second. -/
theorem fieldValue_add (b : Buffer) (a m n : Nat) :
    fieldValue b a (m + n) = fieldValue b a m * 2 ^ n + fieldValue b (a + m) n := by
  rw [fieldValue, Finset.sum_range_add]
  congr 1
  · rw [fieldValue, Finset.sum_mul]
    refine Finset.sum_congr rfl fun i hi => ?_
    have hexp : m + n - 1 - i = m - 1 - i + n := by have := Finset.mem_range.1 hi; omega
    rw [hexp, pow_add, mul_assoc]
  · refine Finset.sum_congr rfl fun i _ => ?_
    rw [← Nat.add_assoc, show m + n - 1 - (m + i) = n - 1 - i by omega]

theorem fieldValue_one (b : Buffer) (a : Nat) : fieldValue b a 1 = bufBit b 0 a := by simp [fieldValue]

theorem fieldValue_lt (b : Buffer) (a len : Nat) : fieldValue b a len < 2 ^ len := by
  induction len with
  | zero => simp [fieldValue]
  | succ len ih =>
    have hbit : bufBit b 0 (a + len) < 2 := Nat.mod_lt _ (by decide)
    rw [fieldValue_add, fieldValue_one, pow_succ]
    omega

/-- Shifting a field right drops its last bits. -/
theorem fieldValue_shiftRight (b : Buffer) (a m n : Nat) : fieldValue b a (m + n) >>> n = fieldValue b a m := by
  rw [fieldValue_add, Nat.shiftRight_eq_div_pow, Nat.mul_comm, Nat.mul_add_div (Nat.two_pow_pos n),
    Nat.div_eq_of_lt (fieldValue_lt ..), Nat.add_zero]

/-- Masking a field keeps its last bits. -/
theorem fieldValue_mod (b : Buffer) (a m n : Nat) : fieldValue b a (m + n) % 2 ^ n = fieldValue b (a + m) n := by
  rw [fieldValue_add, Nat.mul_add_mod_of_lt (fieldValue_lt ..)]

/-- Eight bits from a byte's first one are the byte (R9: bit 7 is first). -/
theorem fieldValue_byte (b : Buffer) (a : Nat) : fieldValue b (8 * a) 8 = (byteAt b a).toNat := by
  have hbit : ∀ i < 8, bufBit b 0 (8 * a + i) = (byteAt b a).toNat / 2 ^ (7 - i) % 2 := fun i hi => by
    rw [bufBit, Nat.shiftRight_eq_div_pow, show 0 + (8 * a + i) / 8 = a by omega, show (8 * a + i) % 8 = i by omega]
  have hbyte := (byteAt b a).isLt
  rw [fieldValue, Finset.sum_congr rfl fun i hi => congrArg (· * _) (hbit i (Finset.mem_range.1 hi))]
  simp only [Finset.sum_range_succ, Finset.sum_range_zero]
  omega

/-- Whole bytes are a field too: the big-endian read of R42. -/
theorem bigEndian_eq_fieldValue (b : Buffer) (a n : Nat) : bigEndian b a n = fieldValue b (8 * a) (8 * n) := by
  induction n generalizing a with
  | zero => rfl
  | succ n ih =>
    rw [bigEndian, ih, Nat.mul_succ 8 n, Nat.add_comm (8 * n), fieldValue_add, fieldValue_byte, pow_mul]
    rfl

/-- The loaded bytes hold the field between the `a % 8` bits before it and the `fieldShift` bits after it. -/
theorem loaded_bits_eq (a len : Nat) :
    8 * (endByte a len - startByte a) = a % 8 + len + fieldShift a len := by
  simp only [endByte, startByte, fieldShift]
  omega

/-- `XB` inside the buffer, in closed form (R91). -/
theorem xb_of_le {b : Buffer} {base off len : Nat} (h1 : 1 ≤ len) (h32 : len ≤ 32)
    (h : 8 * base + off + len ≤ 8 * b.len) : xb b base off len = .ok (fieldValue b (8 * base + off) len) := by
  have hend := (endByte_le_iff (8 * base + off) len b.len).2 h
  have hload : startByte (8 * base + off) + (endByte (8 * base + off) len - startByte (8 * base + off)) ≤ b.len := by
    simp only [startByte, endByte] at hend ⊢
    omega
  simp only [xb, require_pos (And.intro h1 h32), require_pos hend, memRead_of_le hload, ok_bind, Nat.one_shiftLeft,
    Nat.and_two_pow_sub_one_eq_mod]
  rw [bigEndian_eq_fieldValue, loaded_bits_eq, fieldValue_shiftRight, fieldValue_mod, startByte, Nat.div_add_mod]

end Sys2Proof.Machine
end

section
open Sys2Proof Sys2Proof.Machine

/-- Settles O18: a command's next state is the state before it but for `POS` and one response. -/
theorem noCommandWritesMemory : Obligations.NoCommandWritesMemory := by
  intro i s t hexec
  obtain ⟨r, p, hnext⟩ := exec_next i s
  obtain rfl := Host.Outcome.next.inj (hnext.symm.trans hexec)
  exact ⟨rfl, rfl, rfl, fun _ => rfl⟩

/-- Settles O25: each of the three reads gives the value of its field, and adjacent fields concatenate. -/
theorem mixedWidthReadsAgree : Obligations.MixedWidthReadsAgree := by
  intro b base off m n hm hn h32 hrange
  refine ⟨fieldValue b (8 * base + off) m, fieldValue b (8 * base + (off + m)) n, xb_of_le hm (by omega) (by omega),
    xb_of_le hn (by omega) (by omega), ?_⟩
  rw [xb_of_le (by omega) h32 hrange, fieldValue_add, Nat.add_assoc]

/-- Settles O23: CSET answers its operand, and MPGDRV's result names no state. -/
theorem csetAndMpgdrvReadNoState : Obligations.CsetAndMpgdrvReadNoState := by
  intro v s s'
  constructor
  · rw [answersOf_of_next (exec_cset v s) rfl, answersOf_of_next (exec_cset v s') rfl]
  · exact answersOf_eq_of_answer (exec_mpgdrv v) rfl

end

/-! ## Proofs: command words and the step (30_encoding.md) -/

section
/-! SUPPORT. The command word and its fields are two spellings of one thing (30_encoding.md R62), and a mask on the word is
one mask per field. -/

namespace Sys2Proof

/-- The fields cover the word: laying out what was read gives the word back. -/
theorem wordOf_fieldsOf (w : CmdWord) : wordOf (fieldsOf w) = w := by
  refine BitVec.eq_of_getLsbD_eq fun i hi => ?_
  simp only [wordOf, fieldsOf, BitVec.getLsbD_append, BitVec.getLsbD_extractLsb']
  split_ifs <;> simp (disch := omega) only [decide_eq_true, Bool.true_and] <;> congr 1 <;> omega

theorem fieldsOf_inj {w v : CmdWord} : fieldsOf w = fieldsOf v ↔ w = v :=
  (Function.LeftInverse.injective wordOf_fieldsOf).eq_iff

theorem fieldsOf_and (w v : CmdWord) : fieldsOf (w &&& v) =
    ⟨(fieldsOf w).opc &&& (fieldsOf v).opc, (fieldsOf w).len &&& (fieldsOf v).len,
      (fieldsOf w).aux &&& (fieldsOf v).aux, (fieldsOf w).rsv &&& (fieldsOf v).rsv,
      (fieldsOf w).arg &&& (fieldsOf v).arg⟩ := by
  simp only [fieldsOf, BitVec.extractLsb'_and]

/-- `OPC` as a number: the word's bits above bit 55. -/
theorem fieldsOf_opc_toNat (w : CmdWord) : (fieldsOf w).opc.toNat = w.toNat / 2 ^ 56 := by
  have hw := w.isLt
  simp only [fieldsOf, BitVec.extractLsb'_toNat, Nat.shiftRight_eq_div_pow]
  omega

/-- An operand laid out in a wider field and read back. -/
theorem extractLsb'_setWidth_self {n m : Nat} (v : BitVec n) (h : n ≤ m) : (v.setWidth m).extractLsb' 0 n = v := by
  rw [BitVec.extractLsb'_setWidth_of_le (by omega), BitVec.extractLsb'_eq_self]

/-- Such an operand leaves the field's other bits 0. -/
theorem setWidth_and_shiftLeft {n m : Nat} (v : BitVec n) : v.setWidth m &&& BitVec.allOnes m <<< n = 0 := by
  refine BitVec.eq_of_getLsbD_eq fun i hi => ?_
  by_cases hin : i < n
  · simp [hin]
  · simp [BitVec.getLsbD_of_ge v i (Nat.not_lt.1 hin)]

/-- A field whose bits from `n` up are 0 is its low `n` bits. -/
theorem setWidth_extractLsb'_self {n m : Nat} {v : BitVec m} (h : v &&& BitVec.allOnes m <<< n = 0) :
    (v.extractLsb' 0 n).setWidth m = v := by
  refine BitVec.eq_of_getLsbD_eq fun i hi => ?_
  by_cases hin : i < n
  · simp [hi, hin]
  · have hbit := congrArg (·.getLsbD i) h
    have hsub : i - n < m := by omega
    simpa [hi, hin, hsub] using hbit.symm

theorem and_ff_eq_zero {v : Byte} : v &&& 0xFF = 0 ↔ v = 0 := by
  rw [show (0xFF : Byte) = BitVec.allOnes 8 from rfl, BitVec.and_allOnes]

theorem and_ffffffff_eq_zero {v : Word} : v &&& 0xFFFFFFFF = 0 ↔ v = 0 := by
  rw [show (0xFFFFFFFF : Word) = BitVec.allOnes 32 from rfl, BitVec.and_allOnes]

end Sys2Proof
end

section
/-! SUPPORT. The decode test of R63 against the encoder: what a shape accepts is what spells the command it builds. -/

namespace Sys2Proof

/-- Every bit the shape marks "0" is 0 (R63). -/
structure Shape.Accepts (sh : Shape) (f : Fields) : Prop where
  len_zero : f.len &&& sh.lenZero = 0
  aux_zero : f.aux &&& sh.auxZero = 0
  rsv_zero : f.rsv = 0
  arg_zero : f.arg &&& sh.argZero = 0

/-- The decoder accepts exactly what the shape of the operation code accepts. -/
theorem decodeFields_eq_ok_iff {f : Fields} {i : Instr} :
    decodeFields f = .ok i ↔ ∃ sh, shapeOf f.opc = some sh ∧ sh.Accepts f ∧ sh.build f = i := by
  unfold decodeFields
  cases shapeOf f.opc with
  | none => simp
  | some sh =>
    constructor
    · intro h
      dsimp only at h
      split_ifs at h with hlen haux hrsv harg
      exact ⟨sh, rfl, ⟨not_not.1 hlen, not_not.1 haux, not_not.1 hrsv, not_not.1 harg⟩, Except.ok.inj h⟩
    · rintro ⟨_, ⟨⟩, hacc, rfl⟩
      simp [hacc.len_zero, hacc.aux_zero, hacc.rsv_zero, hacc.arg_zero]

/-- The fields a shape accepts are those of the command it builds from them: no free bit is lost, no other bit is set. -/
def Shape.Faithful (opc : Byte) (sh : Shape) : Prop := ∀ f, f.opc = opc → sh.Accepts f → encodeFields (sh.build f) = f

/-- A table of shapes by operation code is faithful row by row. -/
theorem faithful_of_ite {opc opc' : Byte} {sh' : Shape} {rest : Option Shape} (hhere : sh'.Faithful opc')
    (hrest : ∀ sh, rest = some sh → sh.Faithful opc) :
    ∀ sh, (if opc = opc' then some sh' else rest) = some sh → sh.Faithful opc := by
  intro sh h
  split_ifs at h with hopc
  · exact Option.some.inj h ▸ hopc ▸ hhere
  · exact hrest sh h

theorem shapeOf_faithful {opc : Byte} : ∀ sh, shapeOf opc = some sh → sh.Faithful opc := by
  refine faithful_of_ite ?extract <| faithful_of_ite ?cset <| faithful_of_ite ?cread <| faithful_of_ite ?ssdec <|
    faithful_of_ite ?id3hdr <| faithful_of_ite ?id3frm <| faithful_of_ite ?id3walk <| faithful_of_ite ?mpghdr <|
    faithful_of_ite ?mpgdrv <| faithful_of_ite ?mpgcrc <| faithful_of_ite ?sideinfo nofun
  all_goals
    rintro ⟨_, len, aux, rsv, arg⟩ rfl ⟨hlen, haux, hrsv, harg⟩
    simp only [and_ff_eq_zero, and_ffffffff_eq_zero] at hlen haux hrsv harg
    subst_vars
  case id3walk => simp only [encodeFields, setWidth_extractLsb'_self (n := 28) harg]
  case sideinfo => simp only [encodeFields, setWidth_extractLsb'_self (n := 2) haux]
  all_goals rfl

/-- The shape of a command's operation code accepts its fields and builds it again. -/
theorem decodeFields_encodeFields (i : Instr) : decodeFields (encodeFields i) = .ok i := by
  rw [decodeFields_eq_ok_iff]
  cases i with
  | extract off len => exact ⟨_, rfl, ⟨BitVec.and_zero, BitVec.zero_and, rfl, BitVec.and_zero⟩, rfl⟩
  | cset pos => exact ⟨_, rfl, ⟨BitVec.zero_and, BitVec.zero_and, rfl, BitVec.and_zero⟩, rfl⟩
  | cread len => exact ⟨_, rfl, ⟨BitVec.and_zero, BitVec.zero_and, rfl, BitVec.zero_and⟩, rfl⟩
  | ssdec base => exact ⟨_, rfl, ⟨BitVec.zero_and, BitVec.zero_and, rfl, BitVec.and_zero⟩, rfl⟩
  | id3hdr => exact ⟨_, rfl, ⟨BitVec.zero_and, BitVec.zero_and, rfl, BitVec.zero_and⟩, rfl⟩
  | id3frm base => exact ⟨_, rfl, ⟨BitVec.zero_and, BitVec.zero_and, rfl, BitVec.and_zero⟩, rfl⟩
  | id3walk tagsize =>
    exact ⟨_, rfl, ⟨BitVec.zero_and, BitVec.zero_and, rfl, setWidth_and_shiftLeft tagsize⟩,
      congrArg Instr.id3walk (extractLsb'_setWidth_self tagsize (by decide))⟩
  | mpghdr base => exact ⟨_, rfl, ⟨BitVec.zero_and, BitVec.zero_and, rfl, BitVec.and_zero⟩, rfl⟩
  | mpgdrv hdr => exact ⟨_, rfl, ⟨BitVec.zero_and, BitVec.zero_and, rfl, BitVec.and_zero⟩, rfl⟩
  | mpgcrc base => exact ⟨_, rfl, ⟨BitVec.zero_and, BitVec.zero_and, rfl, BitVec.and_zero⟩, rfl⟩
  | sideinfo base cm =>
    exact ⟨_, rfl, ⟨BitVec.zero_and, setWidth_and_shiftLeft cm, rfl, BitVec.and_zero⟩,
      congrArg (Instr.sideinfo base) (extractLsb'_setWidth_self cm (by decide))⟩

/-- The fields of one command and no other spell it. -/
theorem decodeFields_eq_ok_iff_eq {f : Fields} {i : Instr} : decodeFields f = .ok i ↔ encodeFields i = f := by
  constructor
  · intro h
    obtain ⟨sh, hsh, hacc, rfl⟩ := decodeFields_eq_ok_iff.1 h
    exact shapeOf_faithful sh hsh f rfl hacc
  · rintro rfl
    exact decodeFields_encodeFields i

end Sys2Proof
end

section
/-! SUPPORT. The rows of R66 against the decoder: each row is a shape with its match and mask laid out in a word, and every
command has the one row of its mnemonic. -/

namespace Sys2Proof

theorem encodeFields_opc (i : Instr) : (encodeFields i).opc = opcode i := by
  cases i <;> rfl

/-- A legal word's operation code is its command's (R71, log entry 17). -/
theorem opcode_of_decode {w : CmdWord} {i : Instr} (h : decode w = .ok i) : opcode i = (fieldsOf w).opc := by
  rw [← encodeFields_opc, decodeFields_eq_ok_iff_eq.1 h]

/-- The row of R66 that a shape stands for: its operation code as `match`, its bits that must be 0 as `mask`. -/
def Shape.row (opc : Byte) (sh : Shape) : OpcodeRow where
  mnemonic := Machine.mnemonicOf (sh.build ⟨opc, 0, 0, 0, 0⟩)
  pattern := wordOf ⟨opc, 0, 0, 0, 0⟩
  mask := wordOf ⟨0xFF, sh.lenZero, sh.auxZero, 0xFF, sh.argZero⟩

/-- `w & mask = match` is the decode test, field by field. -/
theorem Shape.row_spells_iff {opc : Byte} {sh : Shape} {w : CmdWord} :
    (sh.row opc).spells w = true ↔ (fieldsOf w).opc = opc ∧ sh.Accepts (fieldsOf w) := by
  have hopc : (fieldsOf w).opc &&& 0xFF = (fieldsOf w).opc := BitVec.and_allOnes
  rw [OpcodeRow.spells, beq_iff_eq, ← fieldsOf_inj, fieldsOf_and]
  simp only [Shape.row, fieldsOf_wordOf, Fields.mk.injEq, hopc, and_ff_eq_zero]
  exact ⟨fun ⟨ho, hl, ha, hr, hg⟩ => ⟨ho, hl, ha, hr, hg⟩, fun ⟨ho, hl, ha, hr, hg⟩ => ⟨ho, hl, ha, hr, hg⟩⟩

/-- The row of an operation code. -/
def rowAt (opc : Byte) : Option OpcodeRow := (shapeOf opc).map (·.row opc)

/-- The table of R66 holds the decoder's shapes: each row is the one of the operation code in its `match`. -/
theorem rowAt_of_mem : ∀ row ∈ opcodeTable, rowAt (fieldsOf row.pattern).opc = some row := by decide

/-- A command's row is in the table, and no other row has its mnemonic. -/
theorem exists_row (i : Instr) : ∃ row, rowAt (opcode i) = some row ∧ row.mnemonic = Machine.mnemonicOf i ∧
    opcodeTable.filter (fun r => Machine.mnemonicOf i == r.mnemonic) = [row] := by
  cases i <;> exact ⟨_, rfl, rfl, by simp only [Machine.mnemonicOf, opcode]; decide⟩

theorem rowAt_opcode_iff {row : OpcodeRow} (hrow : row ∈ opcodeTable) (i : Instr) :
    rowAt (opcode i) = some row ↔ Machine.mnemonicOf i = row.mnemonic := by
  obtain ⟨row', hat, -, hfilter⟩ := exists_row i
  have hmem : row ∈ opcodeTable.filter (fun r => Machine.mnemonicOf i == r.mnemonic) ↔ row = row' := by
    rw [hfilter, List.mem_singleton]
  rw [hat, Option.some_inj, eq_comm, ← hmem, List.mem_filter, beq_iff_eq, and_iff_right hrow]

/-- R66: a row's match and mask say when a word decodes to a command of that row. -/
theorem spells_iff_decode {row : OpcodeRow} (hrow : row ∈ opcodeTable) (w : CmdWord) :
    row.spells w = true ↔ ∃ i, decode w = .ok i ∧ rowAt (opcode i) = some row := by
  constructor
  · intro h
    obtain ⟨opc, hat⟩ : ∃ opc, rowAt opc = some row := ⟨_, rowAt_of_mem row hrow⟩
    obtain ⟨sh, hsh, rfl⟩ := Option.map_eq_some_iff.1 hat
    obtain ⟨hopc, hacc⟩ := Shape.row_spells_iff.1 h
    have hd : decode w = .ok (sh.build (fieldsOf w)) := decodeFields_eq_ok_iff.2 ⟨sh, hopc ▸ hsh, hacc, rfl⟩
    exact ⟨_, hd, by rw [opcode_of_decode hd, hopc, hat]⟩
  · rintro ⟨i, hd, hat⟩
    obtain ⟨sh, hsh, hacc, -⟩ := decodeFields_eq_ok_iff.1 hd
    rw [opcode_of_decode hd, rowAt, hsh] at hat
    obtain rfl := Option.some.inj hat
    exact Shape.row_spells_iff.2 ⟨rfl, hacc⟩

end Sys2Proof
end

section
/-! SUPPORT. The one response of a command: its status word's three parts (30_encoding.md R71) and where its payload comes
from. -/

namespace Sys2Proof.Machine

theorem statusWord_toNat (ope err : Byte) : (statusWord ope err).toNat = 256 * ope.toNat + err.toNat := by
  have herr := err.isLt
  simp only [statusWord, BitVec.toNat_append]
  rw [← Nat.shiftLeft_add_eq_or_of_lt herr]
  simp [Nat.shiftLeft_eq, Nat.mul_comm]

section
variable (ope err : Byte)

theorem bitsOf_statusWord_high : bitsOf (statusWord ope err) 16 16 = 0 := by
  have hope := ope.isLt
  have herr := err.isLt
  rw [bitsOf, statusWord_toNat, Nat.shiftRight_eq_div_pow]
  omega

theorem bitsOf_statusWord_ope : bitsOf (statusWord ope err) 8 8 = ope.toNat := by
  have hope := ope.isLt
  have herr := err.isLt
  rw [bitsOf, statusWord_toNat, Nat.shiftRight_eq_div_pow]
  omega

theorem bitsOf_statusWord_err : bitsOf (statusWord ope err) 0 8 = err.toNat := by
  have herr := err.isLt
  rw [bitsOf, statusWord_toNat, Nat.shiftRight_eq_div_pow]
  omega

end

/-- R191: the error kinds are numbered 1 to 12. -/
theorem errNumber_range (e : ErrorKind) : 1 ≤ (errNumber e).toNat ∧ (errNumber e).toNat ≤ 12 := by
  cases e <;> decide

/-- A response as R71 and R72 lay it out for an operation code: a payload on success, an error number alone otherwise. -/
inductive IsResponse (ope : Byte) : Response → Prop
  | ok (payload : List Word) : IsResponse ope (okResponse ope payload)
  | error (e : ErrorKind) : IsResponse ope (errorResponse ope e)

namespace IsResponse
variable {ope : Byte} {r : Response}

theorem status_eq (h : IsResponse ope r) : ∃ err, r.status = statusWord ope err ∧ err.toNat ≤ 12 := by
  cases h with
  | ok payload => exact ⟨errOk, rfl, by decide⟩
  | error e => exact ⟨errNumber e, rfl, (errNumber_range e).2⟩

/-- R72: payload words come on success only. -/
theorem payload_eq_nil (h : IsResponse ope r) (herr : bitsOf r.status 0 8 ≠ 0) : r.payload = [] := by
  cases h with
  | ok payload => exact absurd (bitsOf_statusWord_err ope errOk) herr
  | error e => rfl

end IsResponse

theorem bitsOf_errorResponse_ne_zero (ope : Byte) (e : ErrorKind) : bitsOf (errorResponse ope e).status 0 8 ≠ 0 := by
  have hpos := (errNumber_range e).1
  rw [errorResponse, bitsOf_statusWord_err]
  omega

/-- Every command gives one response, with its own operation code (R70, R71). -/
theorem perform_response (ope : Byte) (command : Block → Result (Block × List Word)) (s : State) :
    ∃ b r, perform ope command s = .next (respond r (withBlock b s)) ∧ IsResponse ope r := by
  rcases perform_cases ope command s with ⟨b, payload, -, h⟩ | ⟨e, -, h⟩
  · exact ⟨b, _, h, .ok payload⟩
  · exact ⟨s.toBlock, _, h, .error e⟩

theorem exec_response (i : Instr) (s : State) :
    ∃ b r, exec i s = .next (respond r (withBlock b s)) ∧ IsResponse (opcode i) r := by
  rcases exec_cases i with ⟨pos, rfl⟩ | ⟨len, rfl⟩ | ⟨reads, -, hexec⟩
  · exact ⟨_, _, exec_cset pos s, .ok _⟩
  · exact exec_cread len s ▸ perform_response opcCread _ s
  · exact hexec s ▸ perform_response (opcode i) _ s

/-- The payload of a response without an error number is the one its command computed. -/
theorem payload_of_perform {ope : Byte} {command : Block → Result (Block × List Word)} {s t : State} {r : Response}
    (h : perform ope command s = .next t) (hr : t.responses = s.responses ++ [r]) (herr : bitsOf r.status 0 8 = 0) :
    ∃ b, command s.toBlock = .ok (b, r.payload) := by
  rcases perform_cases ope command s with ⟨b, payload, hc, hnext⟩ | ⟨e, -, hnext⟩ <;>
    obtain rfl := Host.Outcome.next.inj (hnext.symm.trans h) <;>
    obtain rfl := List.singleton_inj.1 (List.append_cancel_left hr)
  · exact ⟨b, hc⟩
  · exact absurd herr (bitsOf_errorResponse_ne_zero ope e)

end Sys2Proof.Machine
end

section
/-! SUPPORT. The idle step (70_reset_and_hazards.md R220; log entry 11). -/

namespace Sys2Proof.Machine

theorem step_of_pending_nil {s : State} (hp : s.pending = []) : step s = .next s := by
  simp only [step, takeHostOp, hp]

end Sys2Proof.Machine
end

section
/-! SUPPORT. How many payload words a command answers on success (30_encoding.md R71). -/

namespace Sys2Proof.Machine

/-- ID3WALK answers a count, three words per frame and an offset (R125). -/
theorem walkWords_length (fs : List Id3Frame) (next : Nat) : (walkWords fs next).length = 2 + 3 * fs.length := by
  have hframes : (fs.flatMap frameWords).length = 3 * fs.length := by
    simp [List.length_flatMap, frameWords, Nat.mul_comm]
  simp only [walkWords, List.length_append, List.length_cons, List.length_nil, hframes]
  omega

/-- A result that was mapped and is a value was a value. -/
theorem map_eq_ok_iff {α β : Type} {x : Result α} {f : α → β} {v : β} :
    x.map f = .ok v ↔ ∃ a, x = .ok a ∧ f a = v := by
  cases x <;> simp [Except.map]

section
variable {i : Instr} {ope : Byte} {s t : State} {r : Response}

/-- Where every payload of a command has a listed length, so has the payload of its response. -/
theorem payloadFits_of_perform {command : Block → Result (Block × List Word)}
    (hexec : exec i s = perform ope command s)
    (hfits : ∀ b payload, command s.toBlock = .ok (b, payload) → payloadFits i payload.length)
    (h : exec i s = .next t) (hr : t.responses = s.responses ++ [r]) (herr : bitsOf r.status 0 8 = 0) :
    payloadFits i r.payload.length := by
  obtain ⟨b, hc⟩ := payload_of_perform (hexec.symm.trans h) hr herr
  exact hfits b r.payload hc

/-- The same for a command that only answers, by the words it makes of what it read. -/
theorem payloadFits_of_answer {α : Type} {read : Block → Result α} {words : α → List Word}
    (hexec : exec i s = answer ope (fun b => (read b).map words) s) (hfits : ∀ v, payloadFits i (words v).length)
    (h : exec i s = .next t) (hr : t.responses = s.responses ++ [r]) (herr : bitsOf r.status 0 8 = 0) :
    payloadFits i r.payload.length := by
  refine payloadFits_of_perform hexec (fun b payload hc => ?_) h hr herr
  obtain ⟨_, hwords, heq⟩ := map_eq_ok_iff.1 hc
  obtain ⟨v, -, rfl⟩ := map_eq_ok_iff.1 hwords
  obtain ⟨-, rfl⟩ := Prod.mk.inj heq
  exact hfits v

end

end Sys2Proof.Machine
end

section
open Sys2Proof Sys2Proof.Machine

/-- Settles O1: the word's fields are the encoder's, and the decoder accepts those as the command they spell. -/
theorem decodeInvertsEncode : Obligations.DecodeInvertsEncode := by
  intro i
  rw [encode, decode, fieldsOf_wordOf, decodeFields_encodeFields]

/-- Settles O2: the decoded command's fields are the word's. -/
theorem encodeInvertsDecode : Obligations.EncodeInvertsDecode := by
  intro w i h
  rw [encode, decodeFields_eq_ok_iff_eq.1 h, wordOf_fieldsOf]

/-- Settles O3: the mask test is the decode test of the row's shape, and a row's shape and mnemonic belong to the same
commands. -/
theorem decodeFollowsMatchAndMask : Obligations.DecodeFollowsMatchAndMask := by
  intro w row hrow
  simp only [spells_iff_decode hrow, rowAt_opcode_iff hrow]

/-- Settles O4: by the mask test the rows a word matches are those with its command's mnemonic, one for a command and none without. -/
theorem wordSpellsOneCommandOrNone : Obligations.WordSpellsOneCommandOrNone := by
  intro w
  cases hd : decode w with
  | ok i =>
    left
    obtain ⟨row, -, hmnemonic, hfilter⟩ := exists_row i
    refine ⟨i, row, rfl, ?_, hmnemonic⟩
    rw [rowsOf, ← hfilter]
    refine List.filter_congr fun r hr => Bool.eq_iff_iff.2 ?_
    rw [decodeFollowsMatchAndMask w r hr, beq_iff_eq]
    simp [hd]
  | error why =>
    right
    refine ⟨why, rfl, List.filter_eq_nil_iff.2 fun r hr => ?_⟩
    rw [decodeFollowsMatchAndMask w r hr]
    simp [hd]

/-- Settles O9: an illegal word raises IllegalCommand with its own top byte, and a command's response has its operation
code, which is that byte. -/
theorem everyWordGetsOneResponse : Obligations.EveryWordGetsOneResponse := by
  intro s w rest hp
  obtain ⟨b, r, hstep, hr⟩ : ∃ b r, step s = .next (respond r (withBlock b { s with pending := rest })) ∧
      IsResponse (fieldsOf w).opc r := by
    cases hd : decode w with
    | error why => exact ⟨s.toBlock, _, step_of_pending_illegal hp hd, .error .illegalCommand⟩
    | ok i => exact opcode_of_decode hd ▸ step_of_pending_legal hp hd ▸ exec_response i { s with pending := rest }
  obtain ⟨err, hstatus, herr⟩ := hr.status_eq
  refine ⟨_, r, hstep, rfl, rfl, ?_, ?_, ?_, hr.payload_eq_nil⟩
  · rw [hstatus, bitsOf_statusWord_high]
  · rw [hstatus, bitsOf_statusWord_ope, fieldsOf_opc_toNat]
  · rwa [hstatus, bitsOf_statusWord_err]

/-- Settles O10: command by command, the words made of what was read. -/
theorem payloadHasTheListedLength : Obligations.PayloadHasTheListedLength := by
  intro i s t r
  cases i with
  | extract off len => exact payloadFits_of_answer (exec_extract off len s) fun v => rfl
  | cset pos =>
    refine payloadFits_of_perform (ope := opcCset) (command := fun b => .ok (setPos pos b, [pos])) rfl ?_
    rintro _ _ ⟨⟩
    rfl
  | cread len =>
    refine payloadFits_of_perform (exec_cread len s) fun b payload hc => ?_
    obtain ⟨v, -, heq⟩ := map_eq_ok_iff.1 hc
    obtain ⟨-, rfl⟩ := Prod.mk.inj heq
    rfl
  | ssdec base => exact payloadFits_of_answer (exec_ssdec base s) fun v => rfl
  | id3hdr => exact payloadFits_of_answer (exec_id3hdr s) fun v => rfl
  | id3frm base => exact payloadFits_of_answer (exec_id3frm base s) fun v => rfl
  | id3walk tagsize => exact payloadFits_of_answer (exec_id3walk tagsize s) fun v => ⟨_, walkWords_length v.1 v.2⟩
  | mpghdr base => exact payloadFits_of_answer (exec_mpghdr base s) fun v => rfl
  | mpgdrv hdr => exact payloadFits_of_answer (exec_mpgdrv hdr s) fun v => rfl
  | mpgcrc base => exact payloadFits_of_answer (exec_mpgcrc base s) fun v => rfl
  | sideinfo base cm => exact payloadFits_of_answer (exec_sideinfo base cm s) fun v => rfl

/-- Settles O5: five closed words, decoded. -/
theorem workedEncodingsDecode : Obligations.WorkedEncodingsDecode := by
  unfold Obligations.WorkedEncodingsDecode
  decide

/-- Settles O6: the step takes the word and the word decodes. -/
theorem stepRunsDecodedCommand : Obligations.StepRunsDecodedCommand := fun _ _ _ _ hp hd => step_of_pending_legal hp hd

/-- Settles O11: a step that takes an operation leaves one operation less. -/
theorem stepIsIdleOnlyWithNothingPresented : Obligations.StepIsIdleOnlyWithNothingPresented := by
  intro s
  constructor
  · intro h
    cases hp : s.pending with
    | nil => rfl
    | cons op rest =>
      rcases step_of_toBlock op s.toBlock with ⟨b, rs, hnext⟩ | ⟨why, hrefused⟩
      · have hpending := congrArg (·.pending) (Host.Outcome.next.inj ((hnext s rest hp rfl).symm.trans h))
        exact absurd (hpending.trans hp) (List.cons_ne_self op rest).symm
      · exact nomatch (hrefused s rest hp rfl).symm.trans h
  · exact step_of_pending_nil

end

/-! ## Proofs: bit-field extraction and the cursor (40_bit_extract.md) -/

section
/-! SUPPORT. Bit-field reads at an absolute bit offset, on a buffer of ones and in a run with a local cursor
(40_bit_extract.md R53, R97, R98). -/

namespace Sys2Proof.Machine

section
variable {b : Buffer}

/-- The absolute form of a read has base 0 (20_memory.md R53): its offset is the field's first bit. -/
theorem xb_zero_of_le {off len : Nat} (h1 : 1 ≤ len) (h32 : len ≤ 32) (h : off + len ≤ 8 * b.len) :
    xb b 0 off len = .ok (fieldValue b off len) := by
  rw [xb_of_le h1 h32 (by omega), Nat.mul_zero, Nat.zero_add]

theorem xb_zero_of_lt {off len : Nat} (h1 : 1 ≤ len) (h32 : len ≤ 32) (h : 8 * b.len < off + len) :
    xb b 0 off len = .error .outOfRange := xb_of_lt h1 h32 (by omega)

/-- Every bit of a byte FFH is 1. -/
theorem bufBit_of_ff {k : Nat} (h : byteAt b (k / 8) = 0xFF) : bufBit b 0 k = 1 := by
  have hbit : ∀ j < 8, 255 >>> (7 - j) % 2 = 1 := by decide
  rw [bufBit, Nat.zero_add, h]
  exact hbit (k % 8) (Nat.mod_lt k (by decide))

/-- Each further 1 bit takes 2^len - 1 to 2^(len + 1) - 1. -/
theorem fieldValue_of_ones {a len : Nat} (h : ∀ i < len, bufBit b 0 (a + i) = 1) : fieldValue b a len = 2 ^ len - 1 := by
  induction len with
  | zero => rfl
  | succ len ih =>
    rw [fieldValue_add, fieldValue_one, ih fun i hi => h i (by omega), h len (by omega), pow_succ]
    have := Nat.two_pow_pos len
    omega

section
variable {base c n : Nat} {ns : List Nat}

theorem rdAll_cons_of_ok {v : Nat} (h : xb b base c n = .ok v) :
    rdAll b ⟨base, c⟩ (n :: ns) = (rdAll b ⟨base, c + n⟩ ns).map fun r => (v :: r.1, r.2) := by
  rw [rdAll, rd_bind, h, ok_bind]
  dsimp only
  cases rdAll b ⟨base, c + n⟩ ns <;> rfl

theorem rdAll_cons_of_error {e : ErrorKind} (h : xb b base c n = .error e) :
    rdAll b ⟨base, c⟩ (n :: ns) = .error e := by
  rw [rdAll, rd_bind, h, error_bind]

end

/-- Each read of a run inside the buffer starts where the one before it ended. -/
theorem rdAll_of_le {base c : Nat} {widths : List Nat} (hw : ∀ n ∈ widths, 1 ≤ n ∧ n ≤ 32)
    (h : 8 * base + c + widths.sum ≤ 8 * b.len) :
    rdAll b ⟨base, c⟩ widths = .ok (fieldValues b (8 * base + c) widths, ⟨base, c + widths.sum⟩) := by
  induction widths generalizing c with
  | nil => rfl
  | cons n ns ih =>
    obtain ⟨⟨h1, h32⟩, hw⟩ := List.forall_mem_cons.1 hw
    rw [List.sum_cons] at h ⊢
    rw [rdAll_cons_of_ok (xb_of_le h1 h32 (by omega)), ih hw (by omega), fieldValues, Nat.add_assoc c, Nat.add_assoc _ c]
    rfl

/-- A run that passes the end of the buffer has a first read that does. -/
theorem rdAll_of_lt {base c : Nat} {widths : List Nat} (hne : widths ≠ []) (hw : ∀ n ∈ widths, 1 ≤ n ∧ n ≤ 32)
    (h : 8 * b.len < 8 * base + c + widths.sum) : rdAll b ⟨base, c⟩ widths = .error .outOfRange := by
  induction widths generalizing c with
  | nil => exact absurd rfl hne
  | cons n ns ih =>
    obtain ⟨⟨h1, h32⟩, hw⟩ := List.forall_mem_cons.1 hw
    rw [List.sum_cons] at h
    rcases Nat.lt_or_ge (8 * b.len) (8 * base + c + n) with hlt | hle
    · exact rdAll_cons_of_error (xb_of_lt h1 h32 hlt)
    · have hns : ns ≠ [] := by
        rintro rfl
        rw [List.sum_nil] at h
        omega
      rw [rdAll_cons_of_ok (xb_of_le h1 h32 hle), ih hns hw (by omega)]
      rfl

end

/-- The state a response leaves tells the response: it is the last of the list. -/
theorem respond_inj {r r' : Response} {s : State} (h : respond r s = respond r' s) : r = r' :=
  List.singleton_inj.1 (List.append_cancel_left (congrArg (·.responses) h))

section
variable {s : State} {off : Word} {len : Byte}

theorem exec_extract_of_ok {v : Nat} (h : xb (bufferOf s) 0 off.toNat len.toNat = .ok v) :
    exec (.extract off len) s = .next (respond (okResponse opcExtract [payloadWord v]) s) :=
  (exec_extract off len s).trans (answer_map_of_ok h)

theorem exec_extract_of_error {e : ErrorKind} (h : xb (bufferOf s) 0 off.toNat len.toNat = .error e) :
    exec (.extract off len) s = .next (respond (errorResponse opcExtract e) s) :=
  (exec_extract off len s).trans (answer_map_of_error h)

/-- An EXTRACT that answers one word read a value, and the word is that value's. -/
theorem xb_of_exec_extract {v : Word} (h : exec (.extract off len) s = .next (respond ⟨0x0100, [v]⟩ s)) :
    ∃ x, xb (bufferOf s) 0 off.toNat len.toNat = .ok x ∧ payloadWord x = v := by
  cases hx : xb (bufferOf s) 0 off.toNat len.toNat with
  | error e =>
    have hr := respond_inj (Host.Outcome.next.inj ((exec_extract_of_error hx).symm.trans h))
    exact absurd (congrArg Response.payload hr) (List.cons_ne_nil v []).symm
  | ok x =>
    have hr := respond_inj (Host.Outcome.next.inj ((exec_extract_of_ok hx).symm.trans h))
    exact ⟨x, rfl, List.singleton_inj.1 (congrArg Response.payload hr)⟩

end

/-- The advanced position as a payload word is the sum of the two operands as words. -/
theorem payloadWord_add_toNat (pos : Word) (len : Byte) :
    payloadWord (pos.toNat + len.toNat) = pos + len.setWidth 32 := by
  rw [payloadWord, BitVec.ofNat_add, BitVec.ofNat_toNat, BitVec.ofNat_toNat, BitVec.setWidth_eq]

end Sys2Proof.Machine
end

section
open Sys2Proof Sys2Proof.Machine

/-- Settles O24: the closed form inside the buffer, and the two checks that fail before it. -/
theorem extractionClosedForm : Obligations.ExtractionClosedForm :=
  fun _ _ _ _ => ⟨xb_of_le, xb_of_lt, xb_of_width⟩

/-- Settles O26: every bit of the field lies in a byte of ones. -/
theorem allOnesBufferGivesAllOnes : Obligations.AllOnesBufferGivesAllOnes := by
  intro b off len hff h1 h32 h
  rw [xb_zero_of_le h1 h32 h, fieldValue_of_ones fun i hi => bufBit_of_ff (hff _ (by omega))]

/-- Settles O28: the run read by read, inside the buffer and up to the first read past its end. -/
theorem cursorReadsAdjacentFields : Obligations.CursorReadsAdjacentFields :=
  fun _ _ _ _ hne hw => ⟨rdAll_of_le hw, rdAll_of_lt hne hw⟩

/-- Settles O29: EXTRACT answers what its one read gives. -/
theorem extractOutcome : Obligations.ExtractOutcome := by
  intro s off len
  refine ⟨fun h1 h32 h => ?_, fun h => ?_, fun h1 h32 h => ?_⟩
  · exact exec_extract_of_ok (xb_zero_of_le h1 h32 h)
  · exact exec_extract_of_error (e := .unsupportedFieldWidth) (xb_of_width h)
  · exact exec_extract_of_error (e := .outOfRange) (xb_zero_of_lt h1 h32 h)

/-- Settles O31: CREAD answers and advances by what its one read at `POS` gives. -/
theorem creadOutcome : Obligations.CreadOutcome := by
  intro s len
  refine ⟨fun h1 h32 h => ?_, fun h => ?_, fun h1 h32 h => ?_⟩
  · exact exec_cread_of_ok (xb_zero_of_le h1 h32 h)
  · exact exec_cread_of_error (e := .unsupportedFieldWidth) (xb_of_width h)
  · exact exec_cread_of_error (e := .outOfRange) (xb_zero_of_lt h1 h32 h)

/-- Settles O30: CSET reads nothing, and its next state has the new position over the same buffer. -/
theorem csetOutcome : Obligations.CsetOutcome := by
  intro s pos
  refine ⟨exec_cset pos s, fun t len ht h1 h32 h => ?_⟩
  obtain rfl := Host.Outcome.next.inj ((exec_cset pos s).symm.trans ht)
  exact (creadOutcome _ len).2.2 h1 h32 h

/-- Settles O32: both commands make the same read, and the position's sum is taken modulo 2^32 either way. -/
theorem creadReturnsWhatExtractReturns : Obligations.CreadReturnsWhatExtractReturns := by
  intro s len v h
  obtain ⟨x, hx, rfl⟩ := xb_of_exec_extract h
  rw [exec_cread_of_ok hx, payloadWord_add_toNat]
  rfl

/-- Settles O27: the bytes are those that hold `a % 8 + len` bits. -/
theorem fieldSpansOneToFiveBytes : Obligations.FieldSpansOneToFiveBytes := by
  intro a len h1 h32
  have hbytes : endByte a len - startByte a = (a % 8 + len + 7) / 8 := by
    simp only [endByte, startByte]
    omega
  rw [hbytes]
  omega

end

/-! ## Proofs: ID3 tags (41_id3.md) -/

section
/-! SUPPORT. Each decode of 41_id3.md as one row of checks in the order of its rule (R115, R112, R117), ending in a value in
closed form: every failure and every success of the commands is then one outcome of that row. -/

namespace Sys2Proof.Machine

section
variable {α : Type} {c d : Prop} [Decidable c] [Decidable d] {e : ErrorKind} {k k' : Unit → Result α}

/-- Two checks in a row that raise one kind are one check. -/
theorem require_bind_require :
    (require c e >>= fun _ => require d e >>= k) = require (c ∧ d) e >>= k := by
  by_cases hc : c <;> simp [require, hc]

/-- What stands behind a check matters where the check holds alone, and equivalent checks are one check. -/
theorem require_bind_congr (hcd : c ↔ d) (hk : c → k () = k' ()) : (require c e >>= k) = require d e >>= k' := by
  by_cases hc : c
  · simp only [require_pos hc, require_pos (hcd.1 hc), ok_bind, hk hc]
  · simp only [require_neg hc, require_neg (hcd.not.1 hc), error_bind]

end

section
variable {b : Buffer} {p : Nat}

theorem low7_of_lt {v : Byte} (h : v.toNat < 128) : low7 v = v.toNat := Nat.mod_eq_of_lt h

theorem synchsafeOk_iff : synchsafeOk b p ↔ (byteAt b p).toNat < 128 ∧ (byteAt b (p + 1)).toNat < 128 ∧
    (byteAt b (p + 2)).toNat < 128 ∧ (byteAt b (p + 3)).toNat < 128 := by
  constructor
  · exact fun h => ⟨h 0 (by decide), h 1 (by decide), h 2 (by decide), h 3 (by decide)⟩
  · rintro ⟨h0, h1, h2, h3⟩ i hi
    interval_cases i <;> assumption

/-- The shifts of R115 put four numbers of seven bits side by side, as the digits of a number in base 128. -/
theorem shiftLeft_or_digits {v0 v1 v2 v3 : Nat} (h1 : v1 < 128) (h2 : v2 < 128) (h3 : v3 < 128) :
    v0 <<< 21 ||| v1 <<< 14 ||| v2 <<< 7 ||| v3 = ((v0 * 128 + v1) * 128 + v2) * 128 + v3 := by
  have digit : ∀ hi v : Nat, v < 128 → hi * 128 + v = hi <<< 7 ||| v := fun hi v h => by
    rw [← Nat.shiftLeft_add_eq_or_of_lt h, Nat.shiftLeft_eq]
  rw [digit _ _ h1, digit _ _ h2, digit _ _ h3]
  simp only [Nat.shiftLeft_or_distrib, ← Nat.shiftLeft_add]

/-- R115 in closed form. -/
theorem ss_eq_checks (b : Buffer) (p : Nat) : ss b p = (do
    require (p + 4 ≤ b.len) .outOfRange
    require (synchsafeOk b p) .invalidSynchsafeSize
    .ok (synchsafeValue b p)) := by
  simp only [ss, require_bind_require]
  refine require_bind_congr Iff.rfl fun _ => require_bind_congr synchsafeOk_iff.symm fun ⟨h0, h1, h2, h3⟩ => ?_
  rw [low7_of_lt h0, low7_of_lt h1, low7_of_lt h2, low7_of_lt h3, shiftLeft_or_digits h1 h2 h3, synchsafeValue]

theorem ss_of_not_ok (h : p + 4 ≤ b.len) (hbad : ¬synchsafeOk b p) : ss b p = .error .invalidSynchsafeSize := by
  simp only [ss_eq_checks, require_pos h, require_neg hbad, ok_bind, error_bind]

theorem ss_of_ok (h : p + 4 ≤ b.len) (hok : synchsafeOk b p) : ss b p = .ok (synchsafeValue b p) := by
  simp only [ss_eq_checks, require_pos h, require_pos hok, ok_bind]

/-- Four bytes that hold the digits of `n` in base 128 hold a synchsafe `n`. -/
theorem synchsafe_of_digits {n : Nat} (hn : n < 2 ^ 28)
    (h : ∀ k < 4, (byteAt b (p + k)).toNat = (n >>> (7 * (3 - k))) % 128) :
    synchsafeOk b p ∧ synchsafeValue b p = n := by
  refine ⟨fun i hi => h i hi ▸ Nat.mod_lt _ (by decide), ?_⟩
  have h0 : (byteAt b p).toNat = _ := h 0 (by decide)
  rw [synchsafeValue, h0, h 1 (by decide), h 2 (by decide), h 3 (by decide)]
  simp only [Nat.shiftRight_eq_div_pow]
  omega

end

/-- The low five flag bits read as a number (R112). -/
theorem extractLsb'_low5_eq_zero_iff {v : Byte} : v.extractLsb' 0 5 = 0 ↔ v.toNat % 32 = 0 := by
  rw [← BitVec.toNat_inj, BitVec.extractLsb'_toNat]
  rfl

/-- R112 in closed form. -/
theorem id3Header_eq_checks (b : Buffer) : id3Header b = (do
    require (10 ≤ b.len) .outOfRange
    require ((byteAt b 3).toNat = 3) .unsupportedVersion
    require ((byteAt b 5).toNat % 32 = 0) .invalidHeaderFlags
    require (synchsafeOk b 6) .invalidSynchsafeSize
    .ok ⟨synchsafeValue b 6, (byteAt b 5).getLsbD 7, (byteAt b 5).getLsbD 6, (byteAt b 5).getLsbD 5⟩) := by
  refine require_bind_congr Iff.rfl fun h => require_bind_congr BitVec.toNat_inj.symm fun _ =>
    require_bind_congr extractLsb'_low5_eq_zero_iff fun _ => ?_
  by_cases hok : synchsafeOk b 6
  · simp only [ss_of_ok h hok, require_pos hok, ok_bind]
  · simp only [ss_of_not_ok h hok, require_neg hok, error_bind]

/-- Reporting bits 7, 6 and 5 in place is masking the flags byte (R112). -/
theorem id3FlagsWord_eq_mask (size : Nat) (v : Byte) :
    id3FlagsWord ⟨size, v.getLsbD 7, v.getLsbD 6, v.getLsbD 5⟩ = payloadWord (v.toNat &&& 0xE0) := by
  have every : ∀ v : Byte,
      id3FlagsWord ⟨0, v.getLsbD 7, v.getLsbD 6, v.getLsbD 5⟩ = payloadWord (v.toNat &&& 0xE0) := by decide
  exact every v

/-- R117 in closed form. -/
theorem frm_eq_checks (b : Buffer) (p : Nat) : frm b p = (do
    require (p + 10 ≤ b.len) .outOfRange
    require (utf8Valid (byteList b p 4) = true) .invalidEncoding
    require (synchsafeOk b (p + 4)) .invalidSynchsafeSize
    require (p + 10 + synchsafeValue b (p + 4) ≤ b.len) .outOfRange
    require (utf8Valid (byteList b (p + 10) (synchsafeValue b (p + 4))) = true) .invalidEncoding
    .ok ⟨bigEndian b p 4, synchsafeValue b (p + 4), p + 10⟩) := by
  refine require_bind_congr Iff.rfl fun h => ?_
  rw [bytes_of_le (by omega), ok_bind]
  refine require_bind_congr Iff.rfl fun _ => ?_
  by_cases hok : synchsafeOk b (p + 4)
  · rw [ss_of_ok (by omega) hok, require_pos hok]
    refine require_bind_congr Iff.rfl fun hcontent => ?_
    simp only [bytes_of_le hcontent, memRead_of_le (show p + 4 ≤ b.len by omega), ok_bind]
  · simp only [ss_of_not_ok (show p + 4 + 4 ≤ b.len by omega) hok, require_neg hok, error_bind]

/-- `FRM` decodes exactly the frame that stands at the byte (R117, R118). -/
theorem frm_eq_ok_iff {b : Buffer} {p : Nat} {f : Id3Frame} : frm b p = .ok f ↔ FrameAt b p f := by
  obtain ⟨id, size, cstart⟩ := f
  simp only [frm_eq_checks, require_bind_eq_ok, Except.ok.injEq, Id3Frame.mk.injEq, FrameAt]
  constructor
  · rintro ⟨hheader, hname, hok, hrange, hcontent, rfl, rfl, rfl⟩
    exact ⟨hheader, hname, hok, rfl, hrange, hcontent, rfl, rfl⟩
  · rintro ⟨hheader, hname, hok, rfl, hrange, hcontent, rfl, rfl⟩
    exact ⟨hheader, hname, hok, hrange, hcontent, rfl, rfl, rfl⟩

end Sys2Proof.Machine
end

section
/-! SUPPORT. The outcomes of the two records' decodes (R112, R117), one for each check of their rows. -/

namespace Sys2Proof.Machine

section
variable {b : Buffer} (hlen : 10 ≤ b.len)
include hlen

theorem id3Header_of_version (hmajor : (byteAt b 3).toNat ≠ 3) : id3Header b = .error .unsupportedVersion := by
  simp only [id3Header_eq_checks, require_pos hlen, require_neg hmajor, ok_bind, error_bind]

section
variable (hmajor : (byteAt b 3).toNat = 3)
include hmajor

theorem id3Header_of_flags (hflags : (byteAt b 5).toNat % 32 ≠ 0) : id3Header b = .error .invalidHeaderFlags := by
  simp only [id3Header_eq_checks, require_pos hlen, require_pos hmajor, require_neg hflags, ok_bind, error_bind]

variable (hflags : (byteAt b 5).toNat % 32 = 0)
include hflags

theorem id3Header_of_size (hbad : ¬synchsafeOk b 6) : id3Header b = .error .invalidSynchsafeSize := by
  simp only [id3Header_eq_checks, require_pos hlen, require_pos hmajor, require_pos hflags, require_neg hbad, ok_bind,
    error_bind]

theorem id3Header_of_ok (hok : synchsafeOk b 6) : id3Header b =
    .ok ⟨synchsafeValue b 6, (byteAt b 5).getLsbD 7, (byteAt b 5).getLsbD 6, (byteAt b 5).getLsbD 5⟩ := by
  simp only [id3Header_eq_checks, require_pos hlen, require_pos hmajor, require_pos hflags, require_pos hok, ok_bind]

end

end

section
variable {b : Buffer} {p : Nat} (hheader : p + 10 ≤ b.len)
include hheader

theorem frm_of_name (hname : utf8Valid (byteList b p 4) = false) : frm b p = .error .invalidEncoding := by
  simp only [frm_eq_checks, require_pos hheader, require_neg (Bool.eq_false_iff.1 hname), ok_bind, error_bind]

variable (hname : utf8Valid (byteList b p 4) = true)
include hname

theorem frm_of_size (hbad : ¬synchsafeOk b (p + 4)) : frm b p = .error .invalidSynchsafeSize := by
  simp only [frm_eq_checks, require_pos hheader, require_pos hname, require_neg hbad, ok_bind, error_bind]

variable (hok : synchsafeOk b (p + 4))
include hok

theorem frm_of_range (hrange : b.len < p + 10 + synchsafeValue b (p + 4)) : frm b p = .error .outOfRange := by
  simp only [frm_eq_checks, require_pos hheader, require_pos hname, require_pos hok, require_neg (Nat.not_le.2 hrange),
    ok_bind, error_bind]

theorem frm_of_content (hrange : p + 10 + synchsafeValue b (p + 4) ≤ b.len)
    (hcontent : utf8Valid (byteList b (p + 10) (synchsafeValue b (p + 4))) = false) :
    frm b p = .error .invalidEncoding := by
  simp only [frm_eq_checks, require_pos hheader, require_pos hname, require_pos hok, require_pos hrange,
    require_neg (Bool.eq_false_iff.1 hcontent), ok_bind, error_bind]

end

end Sys2Proof.Machine
end

section
/-! SUPPORT. The walk loop against the relation `Walks` (R125, R126): the turns a walk takes, where it ends, and that the
loop runs through every walk and answers nothing else. -/

namespace Sys2Proof.Machine

section
variable {b : Buffer} {stop off next : Nat} {fs : List Id3Frame}

/-- A frame takes ten bytes at least and each starts before `stop`. -/
theorem Walks.length_bound (h : Walks b stop off fs next) : 10 * fs.length < stop - off + 10 := by
  induction h with
  | here off => simp
  | turn off f fs next hoff _ _ ih =>
    rw [List.length_cons]
    omega

theorem Walks.le_next (h : Walks b stop off fs next) : off + 10 * fs.length ≤ next := by
  induction h with
  | here off => rfl
  | turn off f fs next _ _ _ ih =>
    rw [List.length_cons]
    omega

theorem Walks.next_eq (h : Walks b stop off fs next) : next = off + (fs.map fun f => 10 + f.size).sum := by
  induction h with
  | here off => rfl
  | turn off f fs next _ _ _ ih =>
    rw [ih, List.map_cons, List.sum_cons]
    omega

/-- The offset after the last frame is where its content ends. -/
theorem Walks.next_le (h : Walks b stop off fs next) (hne : fs ≠ []) : next ≤ b.len := by
  induction h with
  | here off => exact absurd rfl hne
  | turn off f fs next _ hf hrest ih =>
    cases hrest with
    | here =>
      obtain ⟨-, -, -, -, hcontent, -⟩ := hf
      exact hcontent
    | turn => exact ih (List.cons_ne_nil _ _)

/-- Each frame of a walk is one turn of the loop. -/
theorem walkFrom_of_walks (h : Walks b stop off fs next) (turns : Nat) :
    walkFrom b stop (turns + fs.length) off = (walkFrom b stop turns next).map fun r => (fs ++ r.1, r.2) := by
  induction h with
  | here off =>
    rw [List.length_nil, Nat.add_zero]
    cases walkFrom b stop turns off <;> rfl
  | turn off f fs next hoff hf _ ih =>
    rw [List.length_cons, ← Nat.add_assoc, walkFrom_frame _ hoff (frm_eq_ok_iff.2 hf), ih]
    cases walkFrom b stop turns next <;> rfl

/-- What the loop answers is a walk that reached the stop or used up its turns. -/
theorem walks_of_walkFrom {turns : Nat} (h : walkFrom b stop turns off = .ok (fs, next)) :
    Walks b stop off fs next ∧ (stop ≤ next ∨ fs.length = turns) := by
  induction turns generalizing off fs with
  | zero =>
    obtain ⟨rfl, rfl⟩ := Prod.mk.inj (Except.ok.inj h)
    exact ⟨.here off, .inr rfl⟩
  | succ turns ih =>
    rcases Nat.lt_or_ge off stop with hoff | hoff
    · cases hf : frm b off with
      | error e => exact nomatch (walkFrom_error turns hoff hf).symm.trans h
      | ok f =>
        obtain ⟨⟨fs', next'⟩, hrest, heq⟩ := map_eq_ok_iff.1 ((walkFrom_frame turns hoff hf).symm.trans h)
        obtain ⟨rfl, rfl⟩ := Prod.mk.inj heq
        obtain ⟨hwalks, hend⟩ := ih hrest
        exact ⟨.turn off f fs' next' hoff (frm_eq_ok_iff.1 hf) hwalks, hend.imp_right (congrArg (· + 1))⟩
    · obtain ⟨rfl, rfl⟩ := Prod.mk.inj (Except.ok.inj ((walkFrom_stop _ hoff).symm.trans h))
      exact ⟨.here off, .inl hoff⟩

section
variable {tagsize : Nat} (h : Walks b (tagsize + 10) 10 fs next)
include h

theorem Walks.length_le : fs.length ≤ (tagsize + 9) / 10 := by
  have hbound := h.length_bound
  omega

/-- A walk that ends before the tag does has a turn left. -/
theorem Walks.length_lt (hnext : next < tagsize + 10) : fs.length < (tagsize + 9) / 10 := by
  have hle := h.le_next
  omega

theorem id3Walk_of_walks (hnext : tagsize + 10 ≤ next) : id3Walk b tagsize = .ok (fs, next) := by
  obtain ⟨turns, hturns⟩ := Nat.exists_eq_add_of_le' h.length_le
  rw [id3Walk, hturns, walkFrom_of_walks h, walkFrom_stop turns hnext]
  simp [Except.map]

theorem id3Walk_of_error {e : ErrorKind} (hnext : next < tagsize + 10) (he : frm b next = .error e) :
    id3Walk b tagsize = .error e := by
  obtain ⟨turns, hturns⟩ := Nat.exists_eq_add_of_lt (h.length_lt hnext)
  rw [id3Walk, hturns, Nat.add_comm fs.length, Nat.add_right_comm, walkFrom_of_walks h, walkFrom_error turns hnext he]
  rfl

end

end

end Sys2Proof.Machine
end

section
/-! SUPPORT. `utf8_valid` against the byte patterns of R116: the rows are in the order of their first bytes, so at most one of
them fits a sequence, and taking characters off the front finds every way to cut the sequence into patterns. -/

namespace Sys2Proof.Machine

/-- The bytes of one character: a sequence that fits a row of R116. -/
def IsChar (c : List Byte) : Prop := ∃ row ∈ utf8Rows, fitsRow row c

theorem dropPattern_eq_some_iff {row : List (Byte × Byte)} {s rest : List Byte} :
    dropPattern row s = some rest ↔ ∃ c, fitsRow row c ∧ s = c ++ rest := by
  induction row generalizing s with
  | nil => simp [dropPattern, fitsRow]
  | cons r row ih =>
    cases s with
    | nil => simp [dropPattern, fitsRow, List.forall₂_cons_left_iff]
    | cons v s =>
      simp only [dropPattern, fitsRow, List.forall₂_cons_left_iff, Option.ite_none_right_eq_some, ih]
      constructor
      · rintro ⟨hv, c, hc, rfl⟩
        exact ⟨v :: c, ⟨v, c, hv, hc, rfl⟩, rfl⟩
      · rintro ⟨_, ⟨_, c, hv, hc, rfl⟩, heq⟩
        obtain ⟨rfl, rfl⟩ := List.cons.inj heq
        exact ⟨hv, c, hc, rfl⟩

/-- Every first byte of `row` is below every first byte of `row'`. -/
def LeadBelow (row row' : List (Byte × Byte)) : Prop := ∃ r ∈ row.head?, ∃ r' ∈ row'.head?, r.2 < r'.1

/-- No sequence fits two rows whose first bytes are apart. -/
theorem dropPattern_eq_none_of_leadBelow {row row' : List (Byte × Byte)} {s rest : List Byte} (h : LeadBelow row row')
    (hdrop : dropPattern row' s = some rest) : dropPattern row s = none := by
  obtain ⟨r, hr, r', hr', hlt⟩ := h
  obtain ⟨row, rfl⟩ := List.head?_eq_some_iff.1 hr
  obtain ⟨row', rfl⟩ := List.head?_eq_some_iff.1 hr'
  cases s with
  | nil => rfl
  | cons v s =>
    obtain ⟨⟨hlo, -⟩, -⟩ := Option.ite_none_right_eq_some.1 hdrop
    refine if_neg fun ⟨_, hhi⟩ => ?_
    rw [BitVec.le_def] at hlo hhi
    rw [BitVec.lt_def] at hlt
    omega

/-- In rows that rise, the row that fits is the first that does. -/
theorem findSome?_dropPattern {rows : List (List (Byte × Byte))} (hrise : rows.Pairwise LeadBelow)
    {row : List (Byte × Byte)} (hrow : row ∈ rows) {s rest : List Byte} (h : dropPattern row s = some rest) :
    rows.findSome? (dropPattern · s) = some rest := by
  induction hrise with
  | nil => exact absurd hrow List.not_mem_nil
  | cons hbelow _ ih =>
    rcases List.mem_cons.1 hrow with rfl | hrow
    · rw [List.findSome?_cons, h]
    · rw [List.findSome?_cons, dropPattern_eq_none_of_leadBelow (hbelow row hrow) h, ih hrow]

theorem utf8Rows_pairwise_leadBelow : utf8Rows.Pairwise LeadBelow := by
  simp [utf8Rows, LeadBelow]

theorem dropChar_eq_some_iff {s rest : List Byte} : dropChar s = some rest ↔ ∃ c, IsChar c ∧ s = c ++ rest := by
  constructor
  · intro h
    obtain ⟨row, hrow, hdrop⟩ := List.exists_of_findSome?_eq_some h
    obtain ⟨c, hc, rfl⟩ := dropPattern_eq_some_iff.1 hdrop
    exact ⟨c, ⟨row, hrow, hc⟩, rfl⟩
  · rintro ⟨c, ⟨row, hrow, hc⟩, rfl⟩
    exact findSome?_dropPattern utf8Rows_pairwise_leadBelow hrow (dropPattern_eq_some_iff.2 ⟨c, hc, rfl⟩)

theorem isUtf8_nil : IsUtf8 [] := ⟨[], rfl, by simp⟩

/-- No row is empty, so no character is. -/
theorem IsChar.ne_nil {c : List Byte} (h : IsChar c) : c ≠ [] := by
  rintro rfl
  obtain ⟨row, hrow, hfit⟩ := h
  obtain rfl := List.forall₂_nil_right_iff.1 hfit
  exact absurd hrow (by decide)

/-- A sequence with a byte is valid exactly when a character can be taken off it and the rest is valid. -/
theorem isUtf8_cons_iff {v : Byte} {s : List Byte} :
    IsUtf8 (v :: s) ↔ ∃ rest, dropChar (v :: s) = some rest ∧ IsUtf8 rest := by
  simp only [dropChar_eq_some_iff]
  constructor
  · rintro ⟨_ | ⟨c, chars⟩, heq, hchars⟩
    · exact nomatch heq
    · obtain ⟨hc, hchars⟩ := List.forall_mem_cons.1 hchars
      exact ⟨chars.flatten, ⟨c, hc, heq⟩, chars, rfl, hchars⟩
  · rintro ⟨_, ⟨c, hc, heq⟩, chars, rfl, hchars⟩
    exact ⟨c :: chars, heq, List.forall_mem_cons.2 ⟨hc, hchars⟩⟩

/-- A turn for each byte is turns enough. -/
theorem utf8Chars_eq_true_iff {n : Nat} {s : List Byte} (hn : s.length ≤ n) : utf8Chars n s = true ↔ IsUtf8 s := by
  induction n generalizing s with
  | zero =>
    obtain rfl := List.length_eq_zero_iff.1 (Nat.le_zero.1 hn)
    exact iff_of_true rfl isUtf8_nil
  | succ n ih =>
    cases s with
    | nil => exact iff_of_true rfl isUtf8_nil
    | cons v s =>
      rw [isUtf8_cons_iff, utf8Chars]
      cases hdrop : dropChar (v :: s) with
      | none => simp
      | some rest =>
        have hrest : rest.length ≤ n := by
          obtain ⟨c, hc, heq⟩ := dropChar_eq_some_iff.1 hdrop
          have hpos := List.length_pos_iff.2 hc.ne_nil
          have hlength := congrArg List.length heq
          rw [List.length_append, List.length_cons] at hlength
          rw [List.length_cons] at hn
          omega
        simp [ih hrest]

theorem utf8Valid_iff_isUtf8 (s : List Byte) : utf8Valid s = true ↔ IsUtf8 s := utf8Chars_eq_true_iff le_rfl

end Sys2Proof.Machine
end

section
/-! SUPPORT. The bytes of one character by their number (R116): a first byte, bounds on the second byte that depend on the
first, and bytes 80H to BFH after it. What R116 refuses and the arithmetic of the encodings are both read off these four
forms. -/

namespace Sys2Proof.Machine

/-- A byte that goes on with a character: 80H to BFH. -/
abbrev IsContinuation (v : Byte) : Prop := 0x80 ≤ v.toNat ∧ v.toNat ≤ 0xBF

/-- The rows of R116 with a bound of their own on the second byte. -/
abbrev SecondInBounds (lead second : Byte) : Prop :=
  (lead.toNat = 0xE0 → 0xA0 ≤ second.toNat) ∧ (lead.toNat = 0xED → second.toNat ≤ 0x9F) ∧
  (lead.toNat = 0xF0 → 0x90 ≤ second.toNat) ∧ (lead.toNat = 0xF4 → second.toNat ≤ 0x8F)

/-- A character of one, two, three or four bytes. -/
inductive CharForm : List Byte → Prop
  | one (v : Byte) : v.toNat ≤ 0x7F → CharForm [v]
  | two (v v1 : Byte) : 0xC2 ≤ v.toNat ∧ v.toNat ≤ 0xDF → IsContinuation v1 → CharForm [v, v1]
  | three (v v1 v2 : Byte) : 0xE0 ≤ v.toNat ∧ v.toNat ≤ 0xEF → IsContinuation v1 → SecondInBounds v v1 →
      IsContinuation v2 → CharForm [v, v1, v2]
  | four (v v1 v2 v3 : Byte) : 0xF0 ≤ v.toNat ∧ v.toNat ≤ 0xF4 → IsContinuation v1 → SecondInBounds v v1 →
      IsContinuation v2 → IsContinuation v3 → CharForm [v, v1, v2, v3]

@[simp] theorem fitsRow_cons_cons_iff {lo hi v : Byte} {row : List (Byte × Byte)} {c : List Byte} :
    fitsRow ((lo, hi) :: row) (v :: c) ↔ (lo.toNat ≤ v.toNat ∧ v.toNat ≤ hi.toNat) ∧ fitsRow row c := by
  simp only [fitsRow, List.forall₂_cons, BitVec.le_def]

@[simp] theorem fitsRow_nil_nil : fitsRow [] [] := .nil
@[simp] theorem not_fitsRow_nil_cons {v : Byte} {c : List Byte} : ¬fitsRow [] (v :: c) := nofun
@[simp] theorem not_fitsRow_cons_nil {r : Byte × Byte} {row : List (Byte × Byte)} : ¬fitsRow (r :: row) [] := nofun

/-- The rows of R116, one number of bytes at a time. -/
theorem isChar_iff_charForm {c : List Byte} : IsChar c ↔ CharForm c := by
  simp only [IsChar, utf8Rows, List.mem_cons, List.not_mem_nil, or_false, exists_eq_or_imp, exists_eq_left]
  constructor
  · intro h
    rcases c with _ | ⟨v, _ | ⟨v1, _ | ⟨v2, _ | ⟨v3, _ | ⟨v4, c⟩⟩⟩⟩⟩ <;>
      simp only [fitsRow_cons_cons_iff, fitsRow_nil_nil, not_fitsRow_nil_cons, not_fitsRow_cons_nil, and_true, and_false,
        or_false, false_or, BitVec.reduceToNat] at h
    · exact .one v (by omega)
    · exact .two v v1 (by omega) (by omega)
    · exact .three v v1 v2 (by omega) (by omega) (by omega) (by omega)
    · exact .four v v1 v2 v3 (by omega) (by omega) (by omega) (by omega) (by omega)
  · intro h
    cases h <;> simp <;> omega

end Sys2Proof.Machine
end

section
/-! SUPPORT. The four forms are the encodings of the scalar values (R116, log entry 10): each form's ranges of bytes are one
range of numbers. -/

namespace Sys2Proof.Machine

theorem ofNat_eq_of_toNat {v : Byte} {k : Nat} (h : k = v.toNat) : BitVec.ofNat 8 k = v := by
  rw [h, BitVec.ofNat_toNat, BitVec.setWidth_eq]

section
variable {n : Nat}

theorem utf8Encode_one (h : n < 0x80) : utf8Encode n = [BitVec.ofNat 8 n] := if_pos h

theorem utf8Encode_two (hlo : 0x80 ≤ n) (hhi : n < 0x800) : utf8Encode n =
    [BitVec.ofNat 8 (0xC0 + n / 64), BitVec.ofNat 8 (0x80 + n % 64)] := by
  simp [utf8Encode, Nat.not_lt.2 hlo, hhi]

theorem utf8Encode_three (hlo : 0x800 ≤ n) (hhi : n < 0x10000) : utf8Encode n =
    [BitVec.ofNat 8 (0xE0 + n / 4096), BitVec.ofNat 8 (0x80 + n / 64 % 64), BitVec.ofNat 8 (0x80 + n % 64)] := by
  simp [utf8Encode, Nat.not_lt.2 hlo, show ¬n < 0x80 by omega, hhi]

theorem utf8Encode_four (hlo : 0x10000 ≤ n) : utf8Encode n =
    [BitVec.ofNat 8 (0xF0 + n / 262144), BitVec.ofNat 8 (0x80 + n / 4096 % 64), BitVec.ofNat 8 (0x80 + n / 64 % 64),
      BitVec.ofNat 8 (0x80 + n % 64)] := by
  simp [utf8Encode, Nat.not_lt.2 hlo, show ¬n < 0x80 by omega, show ¬n < 0x800 by omega]

theorem charForm_utf8Encode (h : isScalar n) : CharForm (utf8Encode n) := by
  rw [isScalar] at h
  rcases Nat.lt_or_ge n 0x80 with h1 | h1
  · rw [utf8Encode_one h1]
    exact .one _ (by rw [BitVec.toNat_ofNat]; omega)
  rcases Nat.lt_or_ge n 0x800 with h2 | h2
  · rw [utf8Encode_two h1 h2]
    constructor <;> simp only [IsContinuation, BitVec.toNat_ofNat] <;> omega
  rcases Nat.lt_or_ge n 0x10000 with h3 | h3
  · rw [utf8Encode_three h2 h3]
    constructor <;> simp only [IsContinuation, SecondInBounds, BitVec.toNat_ofNat] <;> omega
  · rw [utf8Encode_four h3]
    constructor <;> simp only [IsContinuation, SecondInBounds, BitVec.toNat_ofNat] <;> omega

end

theorem CharForm.exists_utf8Encode {c : List Byte} (h : CharForm c) : ∃ n, isScalar n ∧ utf8Encode n = c := by
  simp only [isScalar]
  cases h with
  | one v hv =>
    refine ⟨v.toNat, by omega, ?_⟩
    rw [utf8Encode_one (by omega), ofNat_eq_of_toNat rfl]
  | two v v1 hv h1 =>
    refine ⟨(v.toNat - 0xC0) * 64 + (v1.toNat - 0x80), by omega, ?_⟩
    rw [utf8Encode_two (by omega) (by omega), ofNat_eq_of_toNat (v := v) (by omega),
      ofNat_eq_of_toNat (v := v1) (by omega)]
  | three v v1 v2 hv h1 hsecond h2 =>
    refine ⟨((v.toNat - 0xE0) * 64 + (v1.toNat - 0x80)) * 64 + (v2.toNat - 0x80), by omega, ?_⟩
    rw [utf8Encode_three (by omega) (by omega), ofNat_eq_of_toNat (v := v) (by omega),
      ofNat_eq_of_toNat (v := v1) (by omega), ofNat_eq_of_toNat (v := v2) (by omega)]
  | four v v1 v2 v3 hv h1 hsecond h2 h3 =>
    refine ⟨(((v.toNat - 0xF0) * 64 + (v1.toNat - 0x80)) * 64 + (v2.toNat - 0x80)) * 64 + (v3.toNat - 0x80),
      by omega, ?_⟩
    rw [utf8Encode_four (by omega), ofNat_eq_of_toNat (v := v) (by omega), ofNat_eq_of_toNat (v := v1) (by omega),
      ofNat_eq_of_toNat (v := v2) (by omega), ofNat_eq_of_toNat (v := v3) (by omega)]

/-- The patterns of R116 are the shortest forms of the scalar values. -/
theorem isChar_iff_encodes {c : List Byte} : IsChar c ↔ ∃ n, isScalar n ∧ utf8Encode n = c := by
  rw [isChar_iff_charForm]
  exact ⟨CharForm.exists_utf8Encode, fun ⟨_, hn, h⟩ => h ▸ charForm_utf8Encode hn⟩

/-- A character list and the list of its numbers concatenate to the same bytes. -/
theorem isUtf8_iff_encodes {s : List Byte} :
    IsUtf8 s ↔ ∃ cs : List Nat, (∀ n ∈ cs, isScalar n) ∧ s = cs.flatMap utf8Encode := by
  constructor
  · rintro ⟨chars, rfl, hchars⟩
    choose! scalar hscalar using fun c hc => isChar_iff_encodes.1 (hchars c hc)
    refine ⟨chars.map scalar, List.forall_mem_map.2 fun c hc => (hscalar c hc).1, ?_⟩
    rw [List.flatMap_def, List.map_map]
    exact congrArg List.flatten ((List.map_congr_left fun c hc => (hscalar c hc).2).trans (List.map_id chars)).symm
  · rintro ⟨cs, hcs, rfl⟩
    exact ⟨cs.map utf8Encode, List.flatMap_def,
      List.forall_mem_map.2 fun n hn => isChar_iff_encodes.2 ⟨n, hcs n hn, rfl⟩⟩

end Sys2Proof.Machine
end

section
/-! SUPPORT. What a valid sequence cannot hold (R116), read off its characters one by one. -/

namespace Sys2Proof.Machine

/-- After every first byte of more than one stands a byte that its character admits. -/
def LeadsFollowed (s : List Byte) : Prop :=
  ∀ (k : Nat) (v : Byte), s[k]? = some v → 0xC2 ≤ v.toNat →
    ∃ next, s[k + 1]? = some next ∧ IsContinuation next ∧ SecondInBounds v next

theorem leadsFollowed_nil : LeadsFollowed [] := nofun

theorem leadsFollowed_cons_iff {v : Byte} {s : List Byte} : LeadsFollowed (v :: s) ↔
    (0xC2 ≤ v.toNat → ∃ next, s.head? = some next ∧ IsContinuation next ∧ SecondInBounds v next) ∧ LeadsFollowed s := by
  rw [LeadsFollowed, ← Nat.and_forall_add_one]
  simp only [List.getElem?_cons_zero, List.getElem?_cons_succ, Option.some.injEq, forall_eq', List.head?_eq_getElem?,
    LeadsFollowed]

/-- In a character only the first byte is C2H or above. -/
theorem CharForm.leadsFollowed {c : List Byte} (h : CharForm c) : LeadsFollowed c := by
  cases h <;>
    simp only [leadsFollowed_cons_iff, leadsFollowed_nil, List.head?_cons, List.head?_nil, Option.some.injEq,
      exists_eq_left', reduceCtorEq, false_and, exists_false, and_true] <;>
    omega

theorem LeadsFollowed.append {s rest : List Byte} (hs : LeadsFollowed s) (hrest : LeadsFollowed rest) :
    LeadsFollowed (s ++ rest) := by
  intro k v hk hv
  rcases Nat.lt_or_ge k s.length with hlt | hge
  · obtain ⟨next, hnext, hbounds⟩ := hs k v (List.getElem?_append_left hlt ▸ hk) hv
    exact ⟨next, List.getElem?_append_left (List.getElem?_eq_some_iff.1 hnext).1 ▸ hnext, hbounds⟩
  · rw [List.getElem?_append_right hge] at hk
    rw [List.getElem?_append_right (by omega), Nat.sub_add_comm hge]
    exact hrest _ v hk hv

/-- Bytes that occur in no character: C0H, C1H and F5H to FFH. -/
theorem CharForm.bytes_legal {c : List Byte} (h : CharForm c) :
    ∀ v ∈ c, v.toNat ≠ 0xC0 ∧ v.toNat ≠ 0xC1 ∧ v.toNat < 0xF5 := by
  cases h <;> simp only [List.forall_mem_cons, List.not_mem_nil, false_implies, implies_true, and_true] <;> omega

theorem leadsFollowed_flatten {chars : List (List Byte)} (h : ∀ c ∈ chars, LeadsFollowed c) :
    LeadsFollowed chars.flatten := by
  induction chars with
  | nil => exact nofun
  | cons c chars ih =>
    obtain ⟨hc, hchars⟩ := List.forall_mem_cons.1 h
    exact hc.append (ih hchars)

end Sys2Proof.Machine
end

section
/-! SUPPORT. Ranges of zero bytes: valid text and the number 0 (R126). -/

namespace Sys2Proof.Machine

/-- A zero byte is a character of its own. -/
theorem isUtf8_replicate_zero (n : Nat) : IsUtf8 (List.replicate n 0) := by
  refine ⟨List.replicate n [0], List.flatten_replicate_singleton.symm, fun c hc => ?_⟩
  rw [List.eq_of_mem_replicate hc]
  exact isChar_iff_charForm.2 (.one 0 (by decide))

section
variable {b : Buffer} {a n : Nat} (h : ∀ i, a ≤ i → i < a + n → byteAt b i = 0)
include h

theorem byteList_of_zero : byteList b a n = List.replicate n 0 := by
  induction n generalizing a with
  | zero => rfl
  | succ n ih =>
    rw [byteList, h a (by omega) (by omega), ih fun i hlo hhi => h i (by omega) (by omega), List.replicate_succ]

theorem bigEndian_of_zero : bigEndian b a n = 0 := by
  induction n generalizing a with
  | zero => rfl
  | succ n ih =>
    rw [bigEndian, h a (by omega) (by omega), ih fun i hlo hhi => h i (by omega) (by omega)]
    exact Nat.zero_mul _

end

end Sys2Proof.Machine
end

section
open Sys2Proof Sys2Proof.Machine

/-- Settles O34: the two checks of the decode in order, and the digits of `n` in base 128. -/
theorem synchsafeDecode : Obligations.SynchsafeDecode := by
  intro b p
  refine ⟨ss_of_lt, ss_of_not_ok, ss_of_ok, fun n hn hrange hdigits => ?_⟩
  obtain ⟨hok, hvalue⟩ := synchsafe_of_digits hn hdigits
  rw [ss_of_ok hrange hok, hvalue]

/-- Settles O35: SSDEC answers what its one decode gives. -/
theorem ssdecOutcome : Obligations.SsdecOutcome := by
  intro s base
  refine ⟨fun h => ?_, fun h hbad => ?_, fun h hok => ?_⟩
  · exact (exec_ssdec base s).trans (answer_map_of_error (e := .outOfRange) (ss_of_lt h))
  · exact (exec_ssdec base s).trans (answer_map_of_error (e := .invalidSynchsafeSize) (ss_of_not_ok h hbad))
  · exact (exec_ssdec base s).trans (answer_map_of_ok (ss_of_ok h hok))

/-- Settles O36: one clause for each check of the header, in the order of R112, and the flags in place. -/
theorem id3hdrOutcome : Obligations.Id3hdrOutcome := by
  intro s
  have hexec := exec_id3hdr s
  refine ⟨fun h => ?short, fun h hmajor => ?version, fun h hmajor hflags => ?flags,
    fun h hmajor hflags hbad => ?size, fun h hmajor hflags hok => ?ok⟩
  case short => exact hexec.trans (answer_map_of_error (e := .outOfRange) (id3Header_of_lt h))
  case version => exact hexec.trans (answer_map_of_error (e := .unsupportedVersion) (id3Header_of_version h hmajor))
  case flags => exact hexec.trans (answer_map_of_error (e := .invalidHeaderFlags) (id3Header_of_flags h hmajor hflags))
  case size =>
    exact hexec.trans (answer_map_of_error (e := .invalidSynchsafeSize) (id3Header_of_size h hmajor hflags hbad))
  case ok =>
    rw [← id3FlagsWord_eq_mask (synchsafeValue (bufferOf s) 6)]
    exact hexec.trans (answer_map_of_ok (v := Id3Header.mk _ _ _ _) (id3Header_of_ok h hmajor hflags hok))

/-- Settles O37: taking characters off the front decides the concatenations of patterns. -/
theorem utf8ValidIffConcatenation : Obligations.Utf8ValidIffConcatenation := utf8Valid_iff_isUtf8

/-- Settles O38: the table's patterns are the encodings, so the concatenations are the same. -/
theorem utf8ValidIffEncodesScalars : Obligations.Utf8ValidIffEncodesScalars := fun s =>
  (utf8Valid_iff_isUtf8 s).trans isUtf8_iff_encodes

/-- Settles O39: a valid sequence is a row of characters, each of which holds legal bytes and follows its first byte. -/
theorem utf8RefusesWhatTheRuleNames : Obligations.Utf8RefusesWhatTheRuleNames := by
  refine ⟨fun s hvalid => ?_, fun n => (utf8Valid_iff_isUtf8 _).2 (isUtf8_replicate_zero n)⟩
  obtain ⟨chars, rfl, hchars⟩ := (utf8Valid_iff_isUtf8 s).1 hvalid
  have hform : ∀ c ∈ chars, CharForm c := fun c hc => isChar_iff_charForm.1 (hchars c hc)
  constructor
  · intro v hv
    obtain ⟨c, hc, hvc⟩ := List.mem_flatten.1 hv
    obtain ⟨hC0, hC1, hF5⟩ := (hform c hc).bytes_legal v hvc
    exact ⟨fun h => hC0 (congrArg BitVec.toNat h), fun h => hC1 (congrArg BitVec.toNat h), hF5⟩
  · intro k v hk hv
    obtain ⟨next, hnext, ⟨hlo, hhi⟩, hE0, hED, hF0, hF4⟩ :=
      leadsFollowed_flatten (fun c hc => (hform c hc).leadsFollowed) k v hk hv
    exact ⟨next, hnext, hlo, hhi, fun h => hE0 (congrArg BitVec.toNat h), fun h => hED (congrArg BitVec.toNat h),
      fun h => hF0 (congrArg BitVec.toNat h), fun h => hF4 (congrArg BitVec.toNat h)⟩

/-- Settles O40: one clause for each check of the frame, in the order of R117, and the frame that stands there. -/
theorem id3frmOutcome : Obligations.Id3frmOutcome := by
  intro s base
  have hexec := exec_id3frm base s
  refine ⟨fun h => ?header, fun h hname => ?name, fun h hname hbad => ?size, fun h hname hok hrange => ?range,
    fun h hname hok hrange hcontent => ?content, fun f hf => ?frame⟩
  case header => exact hexec.trans (answer_map_of_error (e := .outOfRange) (frm_of_lt h))
  case name => exact hexec.trans (answer_map_of_error (e := .invalidEncoding) (frm_of_name h hname))
  case size => exact hexec.trans (answer_map_of_error (e := .invalidSynchsafeSize) (frm_of_size h hname hbad))
  case range => exact hexec.trans (answer_map_of_error (e := .outOfRange) (frm_of_range h hname hok hrange))
  case content =>
    exact hexec.trans (answer_map_of_error (e := .invalidEncoding) (frm_of_content h hname hok hrange hcontent))
  case frame =>
    obtain ⟨-, -, -, -, -, -, hid, hcstart⟩ := id hf
    rw [← hid, ← hcstart]
    exact hexec.trans (answer_map_of_ok (frm_eq_ok_iff.2 hf))

/-- Settles O41: the loop runs through the walk and then stops, or meets the error. -/
theorem id3walkOutcome : Obligations.Id3walkOutcome := by
  intro s tagsize fs next hwalks
  refine ⟨fun hnext => ?_, fun e hnext he => ?_⟩
  · exact (exec_id3walk tagsize s).trans (answer_map_of_ok (v := (fs, next)) (id3Walk_of_walks hwalks hnext))
  · exact (exec_id3walk tagsize s).trans (answer_map_of_error (id3Walk_of_error hwalks hnext he))

/-- Settles O42: what the loop answers is a walk, each of its frames takes ten bytes at least, and a walk that used up its
turns is past the tag. -/
theorem walkIsBounded : Obligations.WalkIsBounded := by
  intro b tagsize
  refine ⟨fun fs next h => ?_, walkFrom_stop 0 le_rfl⟩
  obtain ⟨hwalks, hend⟩ := walks_of_walkFrom h
  have hnext := hwalks.le_next
  exact ⟨by omega, hwalks.next_eq, hwalks.length_le, hwalks.next_le⟩

/-- Settles O43: zero bytes are valid UTF-8, a synchsafe 0 and the number 0, and no content follows. -/
theorem zeroPaddingIsAnEmptyFrame : Obligations.ZeroPaddingIsAnEmptyFrame := by
  intro b p hrange hzero
  have hbyte : ∀ i, p ≤ i → i < p + 10 → byteAt b i = 0 := fun i hlo hhi => by
    have hk := hzero (i - p) (by omega)
    rwa [Nat.add_sub_cancel' hlo] at hk
  have hname : byteList b p 4 = List.replicate 4 0 := byteList_of_zero fun i hlo hhi => hbyte i hlo (by omega)
  have hid : bigEndian b p 4 = 0 := bigEndian_of_zero fun i hlo hhi => hbyte i hlo (by omega)
  obtain ⟨hok, hsize⟩ : synchsafeOk b (p + 4) ∧ synchsafeValue b (p + 4) = 0 :=
    synchsafe_of_digits (by decide) fun k hk => by
      rw [hbyte _ (by omega) (by omega), Nat.zero_shiftRight]
      rfl
  exact frm_eq_ok_iff.2 ⟨hrange, hname ▸ (utf8Valid_iff_isUtf8 _).2 (isUtf8_replicate_zero 4), hok, hsize.symm, hrange,
    rfl, hid.symm, rfl⟩

end

/-! ## Proofs: MPEG frame headers (42_mpeg_header.md) -/

section
/-! SUPPORT. The header image (42_mpeg_header.md R140): the parts of a word as bit ranges, and the thirteen reads of the
header decode (R142) as one field of 32 bits. -/

namespace Sys2Proof.Machine

theorem bitsOf_lt (w : Word) (lo width : Nat) : bitsOf w lo width < 2 ^ width := Nat.mod_lt _ (Nat.two_pow_pos width)

theorem extractLsb'_eq_ofNat_bitsOf (w : Word) (lo width : Nat) :
    w.extractLsb' lo width = BitVec.ofNat width (bitsOf w lo width) := by
  rw [← BitVec.toNat_inj, BitVec.extractLsb'_toNat, BitVec.toNat_ofNat, bitsOf, Nat.mod_mod]

theorem getLsbD_eq_bitsOf (w : Word) (i : Nat) : w.getLsbD i = decide (bitsOf w i 1 = 1) := by
  rw [BitVec.getLsbD, Nat.testBit_eq_decide_div_mod_eq, bitsOf, Nat.shiftRight_eq_div_pow, pow_one]

theorem getLsbD_toNat (w : Word) (i : Nat) : (w.getLsbD i).toNat = bitsOf w i 1 := by
  rw [BitVec.getLsbD, Nat.toNat_testBit, bitsOf, Nat.shiftRight_eq_div_pow, pow_one]

/-- Words that agree in their low `n` bits agree in every part of these. -/
theorem bitsOf_congr {w w' : Word} {n lo width : Nat} (hlow : bitsOf w' 0 n = bitsOf w 0 n) (hn : lo + width ≤ n) :
    bitsOf w' lo width = bitsOf w lo width := by
  refine Nat.eq_of_testBit_eq fun i => ?_
  have hbit := congrArg (·.testBit (lo + i)) hlow
  simp only [bitsOf, Nat.testBit_mod_two_pow, Nat.testBit_shiftRight, Nat.zero_add] at hbit ⊢
  by_cases hi : i < width
  · simpa [hi, show lo + i < n by omega] using hbit
  · simp [hi]

/-- Bits of a word that holds a field are the field between the bits before them and the `lo` bits after them. -/
theorem bitsOf_of_fieldValue {b : Buffer} {w : Word} {a n : Nat} (hw : w.toNat = fieldValue b a n)
    (before width lo : Nat) (hn : n = before + width + lo) : bitsOf w lo width = fieldValue b (a + before) width := by
  rw [bitsOf, hw, hn, fieldValue_shiftRight, fieldValue_mod]

/-- Adjacent fields concatenate: shifting the first by the width of the second leaves room for it. -/
theorem fieldValue_add_or (b : Buffer) (a m n : Nat) :
    fieldValue b a (m + n) = fieldValue b a m <<< n ||| fieldValue b (a + m) n := by
  rw [fieldValue_add, ← Nat.shiftLeft_add_eq_or_of_lt (fieldValue_lt ..), Nat.shiftLeft_eq]

/-- The thirteen fields of R140, each shifted to its place, are the 32 bits they were read from. -/
theorem fieldValue_header (b : Buffer) (a : Nat) :
    fieldValue b a 11 <<< 21 ||| fieldValue b (a + 11) 2 <<< 19 ||| fieldValue b (a + 13) 2 <<< 17
      ||| fieldValue b (a + 15) 1 <<< 16 ||| fieldValue b (a + 16) 4 <<< 12 ||| fieldValue b (a + 20) 2 <<< 10
      ||| fieldValue b (a + 22) 1 <<< 9 ||| fieldValue b (a + 23) 1 <<< 8 ||| fieldValue b (a + 24) 2 <<< 6
      ||| fieldValue b (a + 26) 2 <<< 4 ||| fieldValue b (a + 28) 1 <<< 3 ||| fieldValue b (a + 29) 1 <<< 2
      ||| fieldValue b (a + 30) 2 = fieldValue b a 32 := by
  rw [show 32 = 11 + 2 + 2 + 1 + 4 + 2 + 1 + 1 + 2 + 2 + 1 + 1 + 2 from rfl]
  simp only [fieldValue_add_or, Nat.shiftLeft_or_distrib, ← Nat.shiftLeft_add]

/-- R142 in closed form. -/
theorem hdrdec_eq_checks (b : Buffer) (base : Nat) : hdrdec b base = (do
    require (base + 4 ≤ b.len) .outOfRange
    require (bigEndian b base 4 / 2 ^ 21 = 0x7FF) .badFrameSync
    .ok (payloadWord (bigEndian b base 4))) := by
  refine require_bind_congr Iff.rfl fun h => ?_
  simp (disch := omega) only [rd_bind, xb_of_le, ok_bind, Nat.zero_add, Nat.reduceAdd, Nat.add_zero]
  rw [fieldValue_header, bigEndian_eq_fieldValue, ← Nat.shiftRight_eq_div_pow, ← fieldValue_shiftRight b _ 11 21]

section
variable {b : Buffer} {base : Nat}

section
variable (hrange : base + 4 ≤ b.len)
include hrange

theorem hdrdec_of_sync_ne (h : bigEndian b base 4 / 2 ^ 21 ≠ 0x7FF) : hdrdec b base = .error .badFrameSync := by
  simp only [hdrdec_eq_checks, require_pos hrange, require_neg h, ok_bind, error_bind]

theorem hdrdec_of_sync (h : bigEndian b base 4 / 2 ^ 21 = 0x7FF) :
    hdrdec b base = .ok (payloadWord (bigEndian b base 4)) := by
  simp only [hdrdec_eq_checks, require_pos hrange, require_pos h, ok_bind]

end

/-- A header decode that answers found the sync, and its image has the value of the four bytes. -/
theorem sync_and_image_of_hdrdec {h : Word} (hh : hdrdec b base = .ok h) :
    bigEndian b base 4 / 2 ^ 21 = 0x7FF ∧ h.toNat = bigEndian b base 4 := by
  simp only [hdrdec_eq_checks, require_bind_eq_ok, Except.ok.injEq] at hh
  obtain ⟨-, hsync, rfl⟩ := hh
  exact ⟨hsync, payloadWord_toNat (bigEndian_lt b base 4)⟩

end

end Sys2Proof.Machine
end

section
/-! SUPPORT. The derivation from a header image (42_mpeg_header.md R147) as a row of checks on its bits, for any codings and
bitrate tables: what it reads of the image, each failure, and the values (R152). -/

namespace Sys2Proof.Machine

/-- R151: a table is selected unless the version or the layer is Reserved. -/
theorem bitrateTable_eq_none_iff {v : Version} {l : Layer} :
    bitrateTable v l = none ↔ v = .reserved ∨ l = .reserved := by
  cases v <;> cases l <;> decide

theorem exists_bitrateTable {v : Version} {l : Layer} (hv : v ≠ .reserved) (hl : l ≠ .reserved) :
    ∃ t, bitrateTable v l = some t :=
  Option.ne_none_iff_exists'.1 fun hnone => (bitrateTable_eq_none_iff.1 hnone).elim hv hl

section
variable (p : Params) (h : Word)

theorem headerOf_version : (headerOf p h).version = p.versionOf (BitVec.ofNat 2 (bitsOf h 19 2)) :=
  congrArg p.versionOf (extractLsb'_eq_ofNat_bitsOf h 19 2)

theorem headerOf_layer : (headerOf p h).layer = p.layerOf (BitVec.ofNat 2 (bitsOf h 17 2)) :=
  congrArg p.layerOf (extractLsb'_eq_ofNat_bitsOf h 17 2)

theorem headerOf_protection : (headerOf p h).protection = p.protectionOf (BitVec.ofNat 1 (bitsOf h 16 1)) :=
  congrArg p.protectionOf (extractLsb'_eq_ofNat_bitsOf h 16 1)

theorem headerOf_bitrateIndex_toNat : (headerOf p h).bitrateIndex.toNat = bitsOf h 12 4 := BitVec.extractLsb'_toNat ..

theorem headerOf_samplingRateIndex_toNat : (headerOf p h).samplingRateIndex.toNat = bitsOf h 10 2 :=
  BitVec.extractLsb'_toNat ..

theorem headerOf_padding_toNat : (headerOf p h).padding.toNat = bitsOf h 9 1 := getLsbD_toNat h 9

/-- Bits 31:21 of the image are no part of the record (R141). -/
theorem headerOf_congr {h' : Word} (hlow : bitsOf h' 0 21 = bitsOf h 0 21) : headerOf p h' = headerOf p h := by
  simp (disch := omega) only [headerOf, extractLsb'_eq_ofNat_bitsOf, getLsbD_eq_bitsOf, bitsOf_congr hlow]

/-- What a header that selects the table `t` derives. -/
def derivedValues (t : BitrateTable) : DerivedFrameValues :=
  let bitrate := (p.bitrateKbps t).getD (bitsOf h 12 4) 0 * 1000
  let sampleRate := (sampleRateHz (headerOf p h).version).getD (bitsOf h 10 2) 0
  ⟨bitrate, sampleRate, frameLength (headerOf p h).layer bitrate sampleRate (headerOf p h).padding⟩

end

section
variable {p : Params} {h : Word} {t : BitrateTable}

theorem drv_of_reserved (hres : (headerOf p h).version = .reserved ∨ (headerOf p h).layer = .reserved) :
    drv p h = .error .reservedField := by
  rw [drv, validateAndDerive, bitrateTable_eq_none_iff.2 hres]

section
variable (ht : bitrateTable (headerOf p h).version (headerOf p h).layer = some t)
include ht

/-- R147 behind its first check, on the bits of the image. -/
theorem drv_eq_checks : drv p h = (do
    require (bitsOf h 12 4 ≠ 0 ∧ bitsOf h 12 4 ≠ 15) .invalidBitrateIndex
    require (bitsOf h 10 2 ≠ 3) .invalidSampleRateIndex
    .ok (derivedValues p h t)) := by
  simp only [drv, validateAndDerive, ht, ne_eq, ← BitVec.toNat_inj, headerOf_bitrateIndex_toNat,
    headerOf_samplingRateIndex_toNat, derivedValues]
  rfl

theorem drv_of_bitrateIndex (hbad : bitsOf h 12 4 = 0 ∨ bitsOf h 12 4 = 15) :
    drv p h = .error .invalidBitrateIndex := by
  have hindex : ¬(bitsOf h 12 4 ≠ 0 ∧ bitsOf h 12 4 ≠ 15) := by omega
  simp only [drv_eq_checks ht, require_neg hindex, error_bind]

variable (hindex : bitsOf h 12 4 ≠ 0 ∧ bitsOf h 12 4 ≠ 15)
include hindex

theorem drv_of_samplingRateIndex (hbad : bitsOf h 10 2 = 3) : drv p h = .error .invalidSampleRateIndex := by
  simp only [drv_eq_checks ht, require_pos hindex, require_neg (not_not.2 hbad), ok_bind, error_bind]

theorem drv_of_ok (hrate : bitsOf h 10 2 ≠ 3) : drv p h = .ok (derivedValues p h t) := by
  simp only [drv_eq_checks ht, require_pos hindex, require_pos hrate, ok_bind]

end

/-- A derivation that answers passed every check of R147. -/
theorem exists_of_drv_ok {d : DerivedFrameValues} (hd : drv p h = .ok d) :
    ∃ t, bitrateTable (headerOf p h).version (headerOf p h).layer = some t ∧
      (bitsOf h 12 4 ≠ 0 ∧ bitsOf h 12 4 ≠ 15) ∧ bitsOf h 10 2 ≠ 3 ∧ d = derivedValues p h t := by
  cases ht : bitrateTable (headerOf p h).version (headerOf p h).layer with
  | none => exact nomatch (drv_of_reserved (bitrateTable_eq_none_iff.1 ht)).symm.trans hd
  | some t =>
    simp only [drv_eq_checks ht, require_bind_eq_ok, Except.ok.injEq] at hd
    obtain ⟨hindex, hrate, rfl⟩ := hd
    exact ⟨t, rfl, hindex, hrate, rfl⟩

end

end Sys2Proof.Machine
end

section
/-! SUPPORT. The range of a frame length (42_mpeg_header.md R153): the formulas of R152 grow with the bitrate and fall with
the sample rate, so the extreme entries of the tables (R148, R149) give the extreme lengths. -/

namespace Sys2Proof.Machine

/-- Entries 1 and 14 of a bitrate table are its least and its greatest (R148). -/
theorem bitrateKbps_between (t : BitrateTable) : ∀ i < 15, i ≠ 0 →
    (bitrateKbps t).getD 1 0 ≤ (bitrateKbps t).getD i 0 ∧ (bitrateKbps t).getD i 0 ≤ (bitrateKbps t).getD 14 0 := by
  cases t <;> decide

/-- Entries 2 and 1 of a sample-rate table are its least and its greatest (R149). -/
theorem sampleRateHz_between (v : Version) : ∀ i < 3,
    (sampleRateHz v).getD 2 0 ≤ (sampleRateHz v).getD i 0 ∧ (sampleRateHz v).getD i 0 ≤ (sampleRateHz v).getD 1 0 := by
  cases v <;> decide

theorem frameLength_mono (l : Layer) {bitrate bitrate' rate rate' : Nat} {pad pad' : Bool} (hbitrate : bitrate ≤ bitrate')
    (hrate : rate' ≤ rate) (hpos : rate' ≠ 0) (hpad : pad ≤ pad') :
    frameLength l bitrate rate pad ≤ frameLength l bitrate' rate' pad' := by
  have hquotient (c : Nat) : c * bitrate / rate ≤ c * bitrate' / rate' :=
    Nat.div_le_div (Nat.mul_le_mul_left c hbitrate) hrate hpos
  have h12 := hquotient 12
  have h144 := hquotient 144
  have hpadding := Bool.toNat_le_toNat hpad
  unfold frameLength
  split <;> omega

/-- The extreme lengths of each version and layer. -/
theorem frameLength_extremes {v : Version} {l : Layer} {t : BitrateTable} (ht : bitrateTable v l = some t) :
    (sampleRateHz v).getD 2 0 ≠ 0 ∧
    32 ≤ frameLength l ((bitrateKbps t).getD 1 0 * 1000) ((sampleRateHz v).getD 1 0) false ∧
    frameLength l ((bitrateKbps t).getD 14 0 * 1000) ((sampleRateHz v).getD 2 0) true ≤ 2881 := by
  cases v <;> cases l <;> cases ht <;> decide

end Sys2Proof.Machine
end

section
/-! SUPPORT. The verdict of MPGCRC (42_mpeg_header.md R156), for any codings, tables and checksum: the two errors that come
from before it, the frame without a checksum, and the protected frame as one range check and one comparison. -/

namespace Sys2Proof.Machine

theorem bigEndian_two (b : Buffer) (a : Nat) :
    bigEndian b a 2 = (byteAt b a).toNat * 256 + (byteAt b (a + 1)).toNat := by
  simp [bigEndian]

section
variable {p : Params} {b : Buffer} {base : Nat}

theorem mpgcrc_of_hdrdec_error {e : ErrorKind} (hh : hdrdec b base = .error e) : mpgcrc p b base = .error e := by
  simp only [mpgcrc, hh, error_bind]

variable {h : Word} (hh : hdrdec b base = .ok h)
include hh

theorem mpgcrc_of_drv_error {e : ErrorKind} (hd : drv p h = .error e) : mpgcrc p b base = .error e := by
  simp only [mpgcrc, hh, hd, ok_bind, error_bind]

variable {d : DerivedFrameValues} (hd : drv p h = .ok d)
include hd

theorem mpgcrc_of_notProtected (hprot : (headerOf p h).protection = .notProtected) : mpgcrc p b base = .ok 0 := by
  simp only [mpgcrc, hh, hd, ok_bind, if_pos hprot]

variable (hprot : (headerOf p h).protection = .crcPresent)
include hprot

/-- R156 for a protected frame in closed form. -/
theorem mpgcrc_eq_checks : mpgcrc p b base = (do
    require (base + 6 ≤ b.len ∧ base + d.frameLengthBytes ≤ b.len) .outOfRange
    require ((p.crc16X25 (byteList b base d.frameLengthBytes)).toNat = bigEndian b (base + 4) 2) .checksumMismatch
    .ok (payloadWord (2 ^ 16 + bigEndian b (base + 4) 2))) := by
  have hprotected : (headerOf p h).protection ≠ .notProtected := by rw [hprot]; decide
  have hmark : 0x10000 ||| bigEndian b (base + 4) 2 = 2 ^ 16 + bigEndian b (base + 4) 2 :=
    (Nat.two_pow_add_eq_or_of_lt (i := 16) (bigEndian_lt b (base + 4) 2) 1).symm
  simp only [mpgcrc, hh, hd, ok_bind, if_neg hprotected, require_bind_require]
  refine require_bind_congr Iff.rfl fun ⟨h6, hframe⟩ => ?_
  simp only [memRead_of_le (show base + 4 + 2 ≤ b.len from h6), crcRange, bytes_of_le hframe, ok_bind, hmark]

theorem mpgcrc_of_range (hrange : b.len < base + 6 ∨ b.len < base + d.frameLengthBytes) :
    mpgcrc p b base = .error .outOfRange := by
  have hout : ¬(base + 6 ≤ b.len ∧ base + d.frameLengthBytes ≤ b.len) := by omega
  simp only [mpgcrc_eq_checks hh hd hprot, require_neg hout, error_bind]

variable (hrange : base + 6 ≤ b.len ∧ base + d.frameLengthBytes ≤ b.len)
include hrange

theorem mpgcrc_of_mismatch
    (hcrc : (p.crc16X25 (byteList b base d.frameLengthBytes)).toNat ≠ bigEndian b (base + 4) 2) :
    mpgcrc p b base = .error .checksumMismatch := by
  simp only [mpgcrc_eq_checks hh hd hprot, require_pos hrange, require_neg hcrc, ok_bind, error_bind]

theorem mpgcrc_of_match
    (hcrc : (p.crc16X25 (byteList b base d.frameLengthBytes)).toNat = bigEndian b (base + 4) 2) :
    mpgcrc p b base = .ok (payloadWord (2 ^ 16 + bigEndian b (base + 4) 2)) := by
  simp only [mpgcrc_eq_checks hh hd hprot, require_pos hrange, require_pos hcrc, ok_bind]

end

end Sys2Proof.Machine
end

section
open Sys2Proof Sys2Proof.Machine

/-- Settles O44: the two checks of the header decode in order, and the image it answers. -/
theorem mpghdrOutcome : Obligations.MpghdrOutcome := by
  intro s base
  have hexec := exec_mpghdr base s
  refine ⟨fun h => ?_, fun h hsync => ?_, fun h hsync => ?_⟩
  · exact hexec.trans (answer_map_of_error (e := .outOfRange) (hdrdec_of_lt h))
  · exact hexec.trans (answer_map_of_error (e := .badFrameSync) (hdrdec_of_sync_ne h hsync))
  · exact hexec.trans (answer_map_of_ok (hdrdec_of_sync h hsync))

/-- Settles O45: the image is the field of 32 bits at the base, so each part of it is the part of that field with as many
bits before it. -/
theorem headerImageLayout : Obligations.HeaderImageLayout := by
  intro b base h hh
  obtain ⟨hsync, himage⟩ := sync_and_image_of_hdrdec hh
  have hfield := bitsOf_of_fieldValue (himage.trans (bigEndian_eq_fieldValue b base 4))
  have hones : bitsOf h 21 11 = 0x7FF := by rw [bitsOf, himage, Nat.shiftRight_eq_div_pow, hsync]; rfl
  exact ⟨himage, hfield 0 11 21 rfl, hones, hfield 11 2 19 rfl, hfield 13 2 17 rfl, hfield 15 1 16 rfl,
    hfield 16 4 12 rfl, hfield 20 2 10 rfl, hfield 22 1 9 rfl, hfield 23 1 8 rfl, hfield 24 2 6 rfl, hfield 26 2 4 rfl,
    hfield 28 1 3 rfl, hfield 29 1 2 rfl, hfield 30 2 0 rfl⟩

/-- Settles O46: one clause for each check of the derivation, in the order of R147, and the record behind the image. -/
theorem mpgdrvOutcome : Obligations.MpgdrvOutcome := by
  intro s h v l bi si pad
  have hexec := exec_mpgdrv h s
  have hv : (headerOf blockParams h).version = v := headerOf_version blockParams h
  have hl : (headerOf blockParams h).layer = l := headerOf_layer blockParams h
  refine ⟨fun hres => ?reserved, fun hvr hlr hbad => ?bitrate, fun hvr hlr h0 h15 hbad => ?rate,
    fun t ht h0 h15 hsi => ?ok, fun h' hlow => ?ignored⟩
  case reserved => exact hexec.trans (answer_map_of_error (e := .reservedField) (drv_of_reserved (hv ▸ hl ▸ hres)))
  case bitrate =>
    obtain ⟨t, ht⟩ := exists_bitrateTable hvr hlr
    exact hexec.trans (answer_map_of_error (e := .invalidBitrateIndex) (drv_of_bitrateIndex (hv ▸ hl ▸ ht) hbad))
  case rate =>
    obtain ⟨t, ht⟩ := exists_bitrateTable hvr hlr
    exact hexec.trans
      (answer_map_of_error (e := .invalidSampleRateIndex) (drv_of_samplingRateIndex (hv ▸ hl ▸ ht) ⟨h0, h15⟩ hbad))
  case ok =>
    intro bitrate rate flen
    have hvalues : derivedValues blockParams h t = ⟨bitrate, rate, flen⟩ := by
      simp only [derivedValues, hv, hl, frameLength, headerOf_padding_toNat]
      rfl
    have hd := (drv_of_ok (hv ▸ hl ▸ ht) ⟨h0, h15⟩ hsi).trans (congrArg Except.ok hvalues)
    exact hexec.trans (answer_map_of_ok (v := DerivedFrameValues.mk bitrate rate flen) hd)
  case ignored =>
    have hd : drv blockParams h' = drv blockParams h :=
      congrArg (validateAndDerive blockParams) (headerOf_congr blockParams h hlow)
    rw [exec_mpgdrv, exec_mpgdrv, hd]

/-- Settles O50: the rate is the entry of the version's table, and the version 01 selects no bitrate table. -/
theorem sampleRateByHeaderBits : Obligations.SampleRateByHeaderBits := by
  intro h d hd
  obtain ⟨t, ht, -, hindex, rfl⟩ := exists_of_drv_ok hd
  have hrate : (derivedValues blockParams h t).sampleRate =
      (sampleRateHz (versionOf (BitVec.ofNat 2 (bitsOf h 19 2)))).getD (bitsOf h 10 2) 0 := by
    rw [derivedValues, headerOf_version]
    rfl
  have hversion : bitsOf h 19 2 ≠ 1 := fun hv => by
    rw [headerOf_version, hv] at ht
    cases ht
  refine ⟨fun hv => ?mpeg1, fun hv => ?mpeg2, fun hv => ?mpeg25, hversion, hindex⟩
  all_goals
    rw [hrate, hv]
    refine ⟨fun hi => ?_, fun hi => ?_, fun hi => ?_⟩ <;>
    · rw [hi]
      rfl

/-- Settles O51: the length lies between the extreme lengths of its version and layer. -/
theorem frameLengthRange : Obligations.FrameLengthRange := by
  intro h d hd
  obtain ⟨t, ht, ⟨h0, h15⟩, h3, rfl⟩ := exists_of_drv_ok hd
  have hindex := bitsOf_lt h 12 4
  have hrateIndex := bitsOf_lt h 10 2
  obtain ⟨hleast, hgreatest⟩ := bitrateKbps_between t (bitsOf h 12 4) (by omega) h0
  obtain ⟨hslow, hfast⟩ := sampleRateHz_between (headerOf blockParams h).version (bitsOf h 10 2) (by omega)
  obtain ⟨hpos, hshortest, hlongest⟩ := frameLength_extremes ht
  have hrate := ((Nat.pos_of_ne_zero hpos).trans_le hslow).ne'
  exact ⟨hshortest.trans (frameLength_mono _ (Nat.mul_le_mul_right 1000 hleast) hfast hrate (Bool.false_le _)),
    (frameLength_mono _ (Nat.mul_le_mul_right 1000 hgreatest) hslow hpos (Bool.le_true _)).trans hlongest⟩

/-- Settles O52: one clause for each outcome of the verdict, in the order of R156. -/
theorem mpgcrcOutcome : Obligations.MpgcrcOutcome := by
  intro s base
  have hexec := exec_mpgcrc base s
  refine ⟨fun e hh => ?decode, fun h e hh hd => ?derive, fun h d hh hd => ?answer⟩
  case decode => exact hexec.trans (answer_map_of_error (mpgcrc_of_hdrdec_error hh))
  case derive => exact hexec.trans (answer_map_of_error (mpgcrc_of_drv_error hh hd))
  case answer =>
    rw [← headerOf_protection]
    refine ⟨fun hprot => ?notProtected, fun hprot => ⟨fun hrange => ?range, fun h6 hframe => ?verdict⟩⟩
    case notProtected => exact hexec.trans (answer_map_of_ok (mpgcrc_of_notProtected hh hd hprot))
    case range => exact hexec.trans (answer_map_of_error (e := .outOfRange) (mpgcrc_of_range hh hd hprot hrange))
    case verdict =>
      intro embedded computed
      have hembedded : embedded = bigEndian (bufferOf s) (base.toNat + 4) 2 := (bigEndian_two ..).symm
      rw [hembedded]
      split_ifs with hcrc
      · exact hexec.trans (answer_map_of_ok (mpgcrc_of_match hh hd hprot ⟨h6, hframe⟩ hcrc))
      · exact hexec.trans
          (answer_map_of_error (e := .checksumMismatch) (mpgcrc_of_mismatch hh hd hprot ⟨h6, hframe⟩ hcrc))

/-- Settles O47: the table by its rows. -/
theorem bitrateTableChoice : Obligations.BitrateTableChoice := by
  intro v l
  refine ⟨bitrateTable_eq_none_iff, ?mpeg1, ?mpeg2⟩
  case mpeg1 =>
    rintro rfl
    exact ⟨fun hl => hl ▸ rfl, fun hl => hl ▸ rfl, fun hl => hl ▸ rfl⟩
  case mpeg2 =>
    rintro (rfl | rfl) <;> exact ⟨fun hl => hl ▸ rfl, fun hl => hl.elim (· ▸ rfl) (· ▸ rfl)⟩

/-- Settles O48: each coding, value by value. -/
theorem rawBitsThatDecide : Obligations.RawBitsThatDecide := by
  unfold Obligations.RawBitsThatDecide
  decide

/-- Settles O49: the worked header is derived, and the layer 00 is Reserved. -/
theorem mpgdrvOnTheSourcesHeaders : Obligations.MpgdrvOnTheSourcesHeaders := by
  intro s
  constructor
  · exact (exec_mpgdrv _ s).trans (answer_map_of_ok (v := DerivedFrameValues.mk 128000 44100 417) rfl)
  · intro h hlayer
    have hres : (headerOf blockParams h).layer = .reserved := by
      rw [headerOf_layer, hlayer]
      rfl
    exact (exec_mpgdrv h s).trans (answer_map_of_error (e := .reservedField) (drv_of_reserved (.inr hres)))

end

/-! ## Proofs: side information (43_side_info.md) -/

section
/-! SUPPORT. SIDEINFO as one run of adjacent reads with a local cursor (43_side_info.md R170, R172; 40_bit_extract.md
R98), and the offset table of a run. -/

namespace Sys2Proof.Machine

/-- Offset and width of each field of a run of reads that starts at bit `off`. -/
def runTable : Nat → List Nat → List (Nat × Nat)
  | _, [] => []
  | off, n :: ns => (off, n) :: runTable (off + n) ns

/-- The eleven widths of a granule in the order of its reads (R173). -/
def Layout.granuleWidths (w : Layout) : List Nat :=
  [w.part23Length, w.bigValues, w.globalGain, w.scalefacCompress, w.windowSwitchingFlag, w.tableSelect, w.region0Count,
   w.region1Count, w.preflag, w.scalefacScale, w.count1tableSelect]

/-- The widths of SIDEINFO's 25 reads in a layout (R172). -/
def Layout.widths (w : Layout) : List Nat := [9, w.privateBits, w.scfsi] ++ w.granuleWidths ++ w.granuleWidths

theorem Layout.widths_ne_nil (w : Layout) : w.widths ≠ [] := List.cons_ne_nil _ _

/-- The payload of R172 for the 25 values read and the bits consumed: three zeros after each granule (R176). -/
def payloadOfRun (values : List Nat) (total : Nat) : List Word :=
  (values.take 14).map payloadWord ++ [0, 0, 0] ++ (values.drop 14).map payloadWord ++ [0, 0, 0] ++ [payloadWord total]

theorem runTable_layoutSC : runTable 0 layoutSC.widths = sideTableSC := rfl

theorem runTable_layoutMC : runTable 0 layoutMC.widths = sideTableMC := rfl

section
variable {b : Buffer}

theorem fieldValues_eq_map_runTable (a off : Nat) (widths : List Nat) :
    fieldValues b (a + off) widths = (runTable off widths).map fun r => fieldValue b (a + r.1) r.2 := by
  induction widths generalizing off with
  | nil => rfl
  | cons n ns ih => rw [fieldValues, runTable, List.map_cons, Nat.add_assoc, ih]

/-- A payload by a run's offset table is the payload of the run's values. -/
theorem sidePayload_runTable (base total : Nat) (widths : List Nat) :
    sidePayload b base (runTable 0 widths) total = payloadOfRun (fieldValues b (8 * base) widths) total := by
  have hvalues := fieldValues_eq_map_runTable (b := b) (8 * base) 0 widths
  rw [Nat.add_zero] at hvalues
  simp only [sidePayload, payloadOfRun, hvalues, ← List.map_take, ← List.map_drop, List.map_map, Function.comp_def]

section
variable {α : Type}

/-- A run followed by `k` is its first read followed by the rest of the run, which is followed by `k`. -/
theorem rdAll_cons_bind (c : Cursor) (n : Nat) (ns : List Nat) (k : List Nat × Cursor → Result α) :
    (rdAll b c (n :: ns) >>= k) = rd b c n >>= fun r => rdAll b r.2 ns >>= fun q => k (r.1 :: q.1, q.2) := by
  simp only [rdAll, bind_assoc, ok_bind]

theorem rdAll_nil_bind (c : Cursor) (k : List Nat × Cursor → Result α) : (rdAll b c [] >>= k) = k ([], c) := rfl

theorem map_bind_result {β γ : Type} (f : β → γ) (x : Result α) (k : α → Result β) :
    (x >>= k).map f = x >>= fun v => (k v).map f := by
  cases x <;> rfl

end

/-- SIDEINFO's reads are one run over the widths of its layout. -/
theorem sideInformation_eq_run (p : Params) (base : Nat) (cm : BitVec 2) :
    (sideInformation p b base cm).map sideWords =
      rdAll b ⟨base, 0⟩ (layoutOf p cm).widths >>= fun r => .ok (payloadOfRun r.1 r.2.count) := by
  simp only [sideInformation, readGranule, Layout.widths, Layout.granuleWidths, List.cons_append, List.nil_append,
    rdAll_cons_bind, rdAll_nil_bind, map_bind_result, bind_assoc, ok_bind]
  rfl

end

section
variable {s : State} {base : Word} {cm : BitVec 2} {w : Layout} (hlayout : layoutOf blockParams cm = w)
  (hwidths : ∀ n ∈ w.widths, 1 ≤ n ∧ n ≤ 32)
include hlayout hwidths

theorem exec_sideinfo_of_le (h : 8 * base.toNat + w.widths.sum ≤ 8 * s.bufLen.toNat) : exec (.sideinfo base cm) s =
    .next (respond ⟨0x3000, sidePayload (bufferOf s) base.toNat (runTable 0 w.widths) w.widths.sum⟩ s) := by
  have hrun := rdAll_of_le (b := bufferOf s) (base := base.toNat) (c := 0) hwidths h
  rw [exec_sideinfo, sidePayload_runTable]
  refine answer_of_ok ((sideInformation_eq_run ..).trans ?_)
  rw [hlayout, ← bufferOf, hrun, ok_bind, Nat.add_zero, Nat.zero_add]

theorem exec_sideinfo_of_lt (h : 8 * s.bufLen.toNat < 8 * base.toNat + w.widths.sum) : exec (.sideinfo base cm) s =
    .next (respond ⟨0x3005, []⟩ s) := by
  have hrun := rdAll_of_lt (b := bufferOf s) (base := base.toNat) (c := 0) w.widths_ne_nil hwidths h
  rw [exec_sideinfo]
  refine answer_of_error (e := .outOfRange) ((sideInformation_eq_run ..).trans ?_)
  rw [hlayout, ← bufferOf, hrun, error_bind]

/-- A run of `total` bits fits the bytes that hold its last bit and no fewer. -/
theorem exec_sideinfo_of_layout {table : List (Nat × Nat)} {total n : Nat} (htable : runTable 0 w.widths = table)
    (htotal : w.widths.sum = total) (hn : total ≤ 8 * n ∧ 8 * n < total + 8) :
    (base.toNat + n ≤ s.bufLen.toNat → exec (.sideinfo base cm) s =
      .next (respond ⟨0x3000, sidePayload (bufferOf s) base.toNat table total⟩ s)) ∧
    (s.bufLen.toNat < base.toNat + n → exec (.sideinfo base cm) s = .next (respond ⟨0x3005, []⟩ s)) := by
  subst htable htotal
  exact ⟨fun h => exec_sideinfo_of_le hlayout hwidths (by omega),
    fun h => exec_sideinfo_of_lt hlayout hwidths (by omega)⟩

end

end Sys2Proof.Machine
end

section
open Sys2Proof Sys2Proof.Machine

/-- Settles O54: SIDEINFO is one run over its layout's widths, of 144 bits in 18 bytes or of 258 bits in 33. -/
theorem sideinfoOutcome : Obligations.SideinfoOutcome := by
  intro s base cm
  refine ⟨fun hsingle => ?single, fun hmulti => ?multi⟩
  case single =>
    exact exec_sideinfo_of_layout (w := layoutSC) (if_pos hsingle) (by decide) runTable_layoutSC rfl (by decide)
  case multi =>
    exact exec_sideinfo_of_layout (w := layoutMC) (if_neg hmulti) (by decide) runTable_layoutMC rfl (by decide)

end

/-! ## Proofs: exceptions (60_exceptions.md) -/

section
/-! SUPPORT. The illegal word (60_exceptions.md R192): what no row of R66 matches is what the decoder refuses, and the one
response it gets. -/

namespace Sys2Proof

theorem rowsOf_eq_nil_iff {w : CmdWord} : rowsOf w = [] ↔ wellFormedWord w = false := by
  rw [rowsOf, List.filter_eq_nil_iff, wellFormedWord, List.any_eq_false]

/-- A word without a row spells no command (R63, R66). -/
theorem exists_decode_error {w : CmdWord} (h : wellFormedWord w = false) : ∃ why, decode w = .error why := by
  rcases wordSpellsOneCommandOrNone w with ⟨i, row, -, hrow, -⟩ | ⟨why, hd, -⟩
  · exact absurd (hrow.symm.trans (rowsOf_eq_nil_iff.2 h)) (List.cons_ne_nil row [])
  · exact ⟨why, hd⟩

namespace Machine

theorem statusWord_eq_ofNat (ope err : Byte) : statusWord ope err = BitVec.ofNat 32 (ope.toNat * 256 + err.toNat) := by
  rw [Nat.mul_comm, ← statusWord_toNat, BitVec.ofNat_toNat, BitVec.setWidth_eq]

/-- The response to an illegal word, by the word as a number (R71, R192). -/
theorem illegalCommand_eq_respond (w : CmdWord) (s : State) :
    illegalCommand w s = respond ⟨BitVec.ofNat 32 (w.toNat / 2 ^ 56 * 256 + 12), []⟩ s := by
  have hstatus : statusWord (fieldsOf w).opc (errNumber .illegalCommand) =
      BitVec.ofNat 32 (w.toNat / 2 ^ 56 * 256 + 12) := by
    rw [statusWord_eq_ofNat, fieldsOf_opc_toNat]
    rfl
  rw [← hstatus]
  rfl

end Machine

end Sys2Proof
end

section
/-! SUPPORT. Which kinds a decode can raise (60_exceptions.md R191, R193): a row of checks raises the kinds of its checks,
so the closed forms of the decodes give the lists. -/

namespace Sys2Proof.Machine

/-- The result is a value or an error of a listed kind. -/
def RaisesOnly {α : Type} (kinds : List ErrorKind) (x : Result α) : Prop := ∀ e, x = .error e → e ∈ kinds

namespace RaisesOnly
variable {α β : Type} {kinds : List ErrorKind} {x : Result α} {e : ErrorKind}

theorem ok (v : α) : RaisesOnly kinds (.ok v : Result α) := nofun

theorem error (he : e ∈ kinds) : RaisesOnly kinds (.error e : Result α) := by
  rintro _ ⟨⟩
  exact he

theorem mono {kinds' : List ErrorKind} (hx : RaisesOnly kinds x) (hsub : kinds ⊆ kinds') : RaisesOnly kinds' x :=
  fun e he => hsub (hx e he)

theorem bind {k : α → Result β} (hx : RaisesOnly kinds x) (hk : ∀ v, RaisesOnly kinds (k v)) :
    RaisesOnly kinds (x >>= k) := by
  cases x with
  | error e => exact error (hx e rfl)
  | ok v => exact hk v

theorem map {f : α → β} (hx : RaisesOnly kinds x) : RaisesOnly kinds (x.map f) := by
  cases x with
  | error e => exact error (hx e rfl)
  | ok v => exact ok (f v)

/-- A check raises its kind, and what follows it raises its own. -/
theorem check {c : Prop} [Decidable c] {k : Unit → Result α} (he : e ∈ kinds) (hk : RaisesOnly kinds (k ())) :
    RaisesOnly kinds (require c e >>= k) := by
  by_cases hc : c
  · rwa [require_pos hc, ok_bind]
  · rw [require_neg hc, error_bind]
    exact error he

end RaisesOnly

section
variable {b : Buffer}

theorem xb_raisesOnly {base off len : Nat} : RaisesOnly [.unsupportedFieldWidth, .outOfRange] (xb b base off len) := by
  rcases xb_cases b base off len with ⟨-, -, -, v, -, h⟩ | ⟨-, h⟩ | ⟨-, -, -, h⟩ <;> rw [h]
  · exact .ok v
  · exact .error (by decide)
  · exact .error (by decide)

theorem ss_raisesOnly {p : Nat} : RaisesOnly [.outOfRange, .invalidSynchsafeSize] (ss b p) := by
  rw [ss_eq_checks]
  exact .check (by decide) <| .check (by decide) <| .ok _

theorem id3Header_raisesOnly :
    RaisesOnly [.outOfRange, .unsupportedVersion, .invalidHeaderFlags, .invalidSynchsafeSize] (id3Header b) := by
  rw [id3Header_eq_checks]
  exact .check (by decide) <| .check (by decide) <| .check (by decide) <| .check (by decide) <| .ok _

theorem frm_raisesOnly {p : Nat} : RaisesOnly [.outOfRange, .invalidEncoding, .invalidSynchsafeSize] (frm b p) := by
  rw [frm_eq_checks]
  exact .check (by decide) <| .check (by decide) <| .check (by decide) <| .check (by decide) <| .check (by decide) <|
    .ok _

/-- The loop raises what the decode of a frame does (R125). -/
theorem walkFrom_raisesOnly {stop turns off : Nat} :
    RaisesOnly [.outOfRange, .invalidEncoding, .invalidSynchsafeSize] (walkFrom b stop turns off) := by
  induction turns generalizing off with
  | zero => exact .ok _
  | succ turns ih =>
    rcases Nat.lt_or_ge off stop with hoff | hoff
    · cases hf : frm b off with
      | error e =>
        rw [walkFrom_error turns hoff hf]
        exact .error (frm_raisesOnly e hf)
      | ok f =>
        rw [walkFrom_frame turns hoff hf]
        exact ih.map
    · rw [walkFrom_stop _ hoff]
      exact .ok _

theorem hdrdec_raisesOnly {base : Nat} : RaisesOnly [.outOfRange, .badFrameSync] (hdrdec b base) := by
  rw [hdrdec_eq_checks]
  exact .check (by decide) <| .check (by decide) <| .ok _

theorem drv_raisesOnly {p : Params} {h : Word} :
    RaisesOnly [.reservedField, .invalidBitrateIndex, .invalidSampleRateIndex] (drv p h) := by
  cases ht : bitrateTable (headerOf p h).version (headerOf p h).layer with
  | none =>
    rw [drv_of_reserved (bitrateTable_eq_none_iff.1 ht)]
    exact .error (by decide)
  | some t =>
    rw [drv_eq_checks ht]
    exact .check (by decide) <| .check (by decide) <| .ok _

theorem mpgcrc_raisesOnly {p : Params} {base : Nat} : RaisesOnly [.outOfRange, .badFrameSync, .reservedField,
    .invalidBitrateIndex, .invalidSampleRateIndex, .checksumMismatch] (mpgcrc p b base) := by
  cases hh : hdrdec b base with
  | error e =>
    rw [mpgcrc_of_hdrdec_error hh]
    exact .error (hdrdec_raisesOnly.mono (by decide) e hh)
  | ok h =>
    cases hd : drv p h with
    | error e =>
      rw [mpgcrc_of_drv_error hh hd]
      exact .error (drv_raisesOnly.mono (by decide) e hd)
    | ok d =>
      cases hprot : (headerOf p h).protection with
      | notProtected =>
        rw [mpgcrc_of_notProtected hh hd hprot]
        exact .ok _
      | crcPresent =>
        rw [mpgcrc_eq_checks hh hd hprot]
        exact .check (by decide) <| .check (by decide) <| .ok _

/-- A run of reads of legal widths can pass the end of the buffer and fail in no other way (R98). -/
theorem rdAll_raisesOnly {base c : Nat} {widths : List Nat} (hw : ∀ n ∈ widths, 1 ≤ n ∧ n ≤ 32) :
    RaisesOnly [.outOfRange] (rdAll b ⟨base, c⟩ widths) := by
  rcases Nat.lt_or_ge (8 * b.len) (8 * base + c + widths.sum) with hlt | hle
  · rcases eq_or_ne widths [] with rfl | hne
    · exact .ok _
    · rw [rdAll_of_lt hne hw hlt]
      exact .error (by decide)
  · rw [rdAll_of_le hw hle]
    exact .ok _

/-- Every field of both layouts has a legal width (R170, R172). -/
theorem layoutOf_widths (p : Params) (cm : BitVec 2) : ∀ n ∈ (layoutOf p cm).widths, 1 ≤ n ∧ n ≤ 32 := by
  rw [layoutOf]
  split <;> decide

theorem sideInformation_raisesOnly {p : Params} {base : Nat} {cm : BitVec 2} :
    RaisesOnly [.outOfRange] ((sideInformation p b base cm).map sideWords) := by
  rw [sideInformation_eq_run]
  exact (rdAll_raisesOnly (layoutOf_widths p cm)).bind fun _ => .ok _

end

end Sys2Proof.Machine
end

section
/-! SUPPORT. The two ways a command can end (60_exceptions.md R193, R195), and that the host's record of what was answered
has no effect on a command (10_state.md R20). -/

namespace Sys2Proof.Machine

/-- The command succeeds, or it raises a kind that R191 lists for it and adds nothing but the error response. -/
def SucceedsOrRaises (i : Instr) (s : State) : Prop :=
  (∃ b payload, exec i s = .next (respond (okResponse (opcode i) payload) (withBlock b s))) ∨
  (∃ e ∈ kindsOf i, exec i s = .next (respond (errorResponse (opcode i) e) s))

namespace SucceedsOrRaises
variable {i : Instr} {s : State}

theorem of_perform {command : Block → Result (Block × List Word)} (hexec : exec i s = perform (opcode i) command s)
    (hkinds : RaisesOnly (kindsOf i) (command s.toBlock)) : SucceedsOrRaises i s := by
  rcases perform_cases (opcode i) command s with ⟨b, payload, -, hnext⟩ | ⟨e, hc, hnext⟩
  · exact .inl ⟨b, payload, hexec.trans hnext⟩
  · exact .inr ⟨e, hkinds e hc, hexec.trans hnext⟩

theorem of_answer {command : Block → Result (List Word)} (hexec : exec i s = answer (opcode i) command s)
    (hkinds : RaisesOnly (kindsOf i) (command s.toBlock)) : SucceedsOrRaises i s := of_perform hexec hkinds.map

end SucceedsOrRaises

theorem exec_succeedsOrRaises (i : Instr) (s : State) : SucceedsOrRaises i s := by
  cases i with
  | extract off len => exact .of_answer (exec_extract off len s) (.map xb_raisesOnly)
  | cset pos => exact .inl ⟨_, _, exec_cset pos s⟩
  | cread len => exact .of_perform (exec_cread len s) (.map xb_raisesOnly)
  | ssdec base => exact .of_answer (exec_ssdec base s) (.map ss_raisesOnly)
  | id3hdr => exact .of_answer (exec_id3hdr s) (.map id3Header_raisesOnly)
  | id3frm base => exact .of_answer (exec_id3frm base s) (.map frm_raisesOnly)
  | id3walk tagsize => exact .of_answer (exec_id3walk tagsize s) (.map walkFrom_raisesOnly)
  | mpghdr base => exact .of_answer (exec_mpghdr base s) (.map hdrdec_raisesOnly)
  | mpgdrv hdr => exact .of_answer (exec_mpgdrv hdr s) (.map drv_raisesOnly)
  | mpgcrc base => exact .of_answer (exec_mpgcrc base s) (.map mpgcrc_raisesOnly)
  | sideinfo base cm => exact .of_answer (exec_sideinfo base cm s) sideInformation_raisesOnly

/-- A command has the same effect in any two states of one block. -/
theorem effect_eq_of_toBlock_eq (i : Instr) {s s' : State} (h : s'.toBlock = s.toBlock) : effect i s' = effect i s := by
  obtain ⟨b, r, hexec⟩ := exec_of_toBlock i s.toBlock
  simp only [effect, hexec s rfl, hexec s' h, respond_toBlock, withBlock_toBlock, respond_responses,
    withBlock_responses, List.drop_left]

end Sys2Proof.Machine
end

section
open Sys2Proof Sys2Proof.Machine

/-- Settles O8: the decoder refuses a word without a row, and the step answers it with the word's top byte. -/
theorem illegalWordOnlyAnswers : Obligations.IllegalWordOnlyAnswers := by
  intro s w rest hp hillegal
  obtain ⟨why, hd⟩ := exists_decode_error hillegal
  rw [step_of_pending_illegal hp hd, illegalCommand_eq_respond]
  rfl

/-- Settles O20: a response with an error number is an error response to the state before, whose block every later command
still finds. -/
theorem failedCommandLeavesNoTrace : Obligations.FailedCommandLeavesNoTrace := by
  intro i s t r hexec hr herr
  rcases exec_succeedsOrRaises i s with ⟨b, payload, hnext⟩ | ⟨e, -, hnext⟩ <;>
    obtain rfl := Host.Outcome.next.inj (hnext.symm.trans hexec) <;>
    obtain rfl := List.singleton_inj.1 (List.append_cancel_left hr)
  · exact absurd (bitsOf_statusWord_err (opcode i) errOk) herr
  · exact ⟨rfl, rfl, fun j => effect_eq_of_toBlock_eq j rfl⟩

/-- Settles O21: each command succeeds or raises a kind of its list. -/
theorem commandsRaiseOnlyTheirKinds : Obligations.CommandsRaiseOnlyTheirKinds := by
  intro i s t hexec
  rcases exec_succeedsOrRaises i s with ⟨b, payload, hnext⟩ | ⟨e, he, hnext⟩ <;>
    obtain rfl := Host.Outcome.next.inj (hnext.symm.trans hexec)
  · exact .inl ⟨payload, rfl⟩
  · exact .inr ⟨e, he, rfl⟩

end
